-- ==== Sys2Proof/Word.lean ====
section
/-! DEFINITION. Words, keys, the value set F of binary64 numbers, and the fixed file of four registers. -/

namespace Sys2Proof

/-- A command word (R90): 32 bits, bit 31 the most significant. -/
abbrev Word := BitVec 32

/-- The key register and the key field (R9, R92): 16-bit two's complement. -/
abbrev Key := BitVec 16

/-- The magnitude pattern of an infinity, bits 62..0 of its binary64 pattern (R73): exponent 2047, fraction 0.
Every finite magnitude pattern lies below it. -/
abbrev infMag : Nat := 0x7FF0000000000000

/-- The value set F (R12): the binary64 values, with one NaN.
A finite value is its sign (bit 63) and its magnitude pattern (bits 62..0, R73), whose order is the order of magnitudes.
DEDUCED (log 1): F has one NaN, so neither a sign nor a payload of a NaN is a value of F. -/
inductive F where
  | nan
  | inf (neg : Bool)
  | fin (neg : Bool) (mag : Fin infMag)
  deriving DecidableEq, Repr

/-- The zero with the given sign bit: `F.zeroOf false` is `+0`, `F.zeroOf true` is `−0`. -/
def F.zeroOf (neg : Bool) : F := .fin neg ⟨0, by decide⟩

/-- `+0`; what `0` and `0.0` mean where they are assigned (R17). -/
def F.zero : F := F.zeroOf false

/-- `1.0`: biased exponent 1023, fraction 0 (R73). -/
def F.one : F := .fin false ⟨0x3FF0000000000000, by decide⟩

/-- The value of F whose 64-bit binary64 pattern is given (R73): bit 63 the sign, 62..52 the biased exponent, 51..0 the fraction. -/
def F.ofBits (b : BitVec 64) : F :=
  let mag := b.toNat % 2 ^ 63
  if h : mag < infMag then .fin b.msb ⟨mag, h⟩
  else if mag = infMag then .inf b.msb
  else .nan

/-- An element of a host output buffer, held as a number that stands for it (R8, R71).
DESIGN CHOICE (log 5): the spec leaves the host's sample type open. -/
abbrev HostSample := Nat

/-- A file of four registers, one per operator index 0..3 (R5, R34). -/
structure Four (α : Type) where
  x0 : α
  x1 : α
  x2 : α
  x3 : α
  deriving DecidableEq, Repr

/-- The register of index `i` (R34). -/
def Four.get {α : Type} (q : Four α) (i : Fin 4) : α :=
  match i with
  | 0 => q.x0
  | 1 => q.x1
  | 2 => q.x2
  | 3 => q.x3

/-- The file with the register of index `i` replaced, every other one kept. -/
def Four.set {α : Type} (q : Four α) (i : Fin 4) (v : α) : Four α :=
  match i with
  | 0 => { q with x0 := v }
  | 1 => { q with x1 := v }
  | 2 => { q with x2 := v }
  | 3 => { q with x3 := v }

/-- The four indices in ascending order, the order of `for i in 0..3` (R11). -/
def indices : List (Fin 4) := [0, 1, 2, 3]

end Sys2Proof
end

