-- ==== Sys2Proof/Syntax.lean ====
section
/-! DEFINITION. The command set (R94, R101): one constructor per mnemonic of the opcode table. -/

namespace Sys2Proof

/-- The decoded commands (R94). The seven UNKNOWN rows of the opcode table are one command with its `OP` value. -/
inductive Instr where
  /-- NOP (R184): `OP = 0x00`. -/
  | nop
  /-- NOTE_ON(k) (R181): `OP = 0x01`, with the key operand (R92). -/
  | noteOn (key : Key)
  /-- NOTE_OFF(k) (R183): `OP = 0x02`, with the key operand (R92). -/
  | noteOff (key : Key)
  /-- UNKNOWN(op) (R184): `OP` in `0x03`..`0xFF`. -/
  | unknown (op : BitVec 8)
  deriving DecidableEq, Repr

end Sys2Proof
end

