-- ==== Sys2Proof/WellFormed.lean ====
section
/-! DEFINITION. Which commands a word can stand for. -/

namespace Sys2Proof

/-- A command some word decodes to: the `OP` value of UNKNOWN is none of the three that R91 assigns.
A key needs no check: its type has exactly the 16-bit values (R9, R92). -/
def Instr.wf : Instr → Bool
  | .nop => true
  | .noteOn _ => true
  | .noteOff _ => true
  | .unknown op => decide (3 ≤ op.toNat)

end Sys2Proof
end

