-- ==== Sys2Proof/Decode.lean ====
section
/-! DEFINITION. Decoding of command words (R90 to R97), and the encoder written from the same format.
Decoding is total (R94): no word is refused, so there is no rejection to name. -/

namespace Sys2Proof

/-- `OP = word[31:24]` (R90). -/
def opField (w : Word) : BitVec 8 := w.extractLsb' 24 8

/-- `RSV = word[23:16]` (R90), ignored on receipt (R93). -/
def rsvField (w : Word) : BitVec 8 := w.extractLsb' 16 8

/-- `KEY = word[15:0]` (R90); as two's complement it is the key operand (R92). -/
def keyField (w : Word) : Key := w.extractLsb' 0 16

/-- `decode` of R94. -/
def decode (w : Word) : Instr :=
  if opField w = 0x00 then .nop
  else if opField w = 0x01 then .noteOn (keyField w)
  else if opField w = 0x02 then .noteOff (keyField w)
  else .unknown (opField w)

/-- The word `OP, RSV, KEY` of format CMD (R90). -/
def cmdWord (op rsv : BitVec 8) (key : Key) : Word := op ++ rsv ++ key

/-- The encoder: RSV is written as zero, as R93 asks of software, and so is a KEY field the command ignores (R92). -/
def encode : Instr → Word
  | .nop => cmdWord 0x00 0 0
  | .noteOn k => cmdWord 0x01 0 k
  | .noteOff k => cmdWord 0x02 0 k
  | .unknown op => cmdWord op 0 0

/-- The command in a word numbered as the opcode table numbers it; every row has 32 bits, one command word.
A command word is one 32-bit value with no byte order (R73, R97), so it is given to `decode` as it stands (log 16). -/
def decodeTableWord (nbits w : Nat) : Option Instr :=
  some (decode (BitVec.ofNat 32 (w % 2 ^ nbits)))

end Sys2Proof
end

