-- ==== Sys2Proof/Machine/Float.lean ====
section
/-! DEFINITION. The arithmetic primitives on F (R13) and the comparisons the rules use.

Every finite value of F is a whole number of units of 2^-1074, so an exact sum is a whole number of units, and an exact
product or quotient is a fraction of two whole numbers of units: each primitive computes the exact result and rounds once. -/

namespace Sys2Proof

/-- The fraction's modulus 2^52: the number of fraction values of one exponent (R73). -/
def fracMod : Nat := 2 ^ 52

/-- How many units of 2^-1074 make 1. -/
@[irreducible] def unitsOne : Nat := 2 ^ 1074

/-- The magnitude, in units of 2^-1074, of a magnitude pattern: subnormal for exponent 0, else with the hidden bit. -/
def magUnits (mag : Nat) : Nat :=
  if mag / fracMod = 0 then mag
  else (fracMod + mag % fracMod) * 2 ^ (mag / fracMod - 1)

/-- The spacing exponent, in units, of the magnitudes around `q` units: 53 significant bits, no finer than one unit. -/
def spacing (q : Nat) : Nat := if q < 2 ^ 53 then 0 else Nat.log2 q - 52

/-- `num / den` rounded to the nearest natural number, ties to the even one. -/
def nearestEven (num den : Nat) : Nat :=
  let m := num / den
  let r := num % den
  if 2 * r < den then m else if den < 2 * r then m + 1 else m + m % 2

/-- The magnitude pattern nearest to `num / den` units, ties to the even pattern (R13); a pattern at or above `infMag` is an overflow.
The pattern with spacing exponent `e` and significand `m` is `e * 2^52 + m`, and a carry out of the significand is the next exponent. -/
def roundMag (num den : Nat) : Nat :=
  spacing (num / den) * fracMod + nearestEven num (den * 2 ^ spacing (num / den))

/-- The value of F with the given sign and magnitude pattern; an overflowed pattern is the infinity of that sign. -/
def ofMag (neg : Bool) (mag : Nat) : F :=
  if h : mag < infMag then .fin neg ⟨mag, h⟩ else .inf neg

/-- `num / den` units with a sign, rounded to nearest, ties to even (R13). -/
@[irreducible] def roundTo (neg : Bool) (num den : Nat) : F := ofMag neg (roundMag num den)

/-- A whole number of units, rounded; an exact zero is `+0`. -/
def ofUnits (z : Int) : F := roundTo (decide (z < 0)) z.natAbs 1

namespace F

/-- `finite(a)` (R13): neither an infinity nor NaN. -/
def finite : F → Bool
  | .fin _ _ => true
  | _ => false

/-- The exact value of a finite number in units of 2^-1074; 0 for the others, for which nothing reads it. -/
def units : F → Int
  | .fin false m => (magUnits m : Int)
  | .fin true m => -(magUnits m : Int)
  | _ => 0

/-- The negation used by `fsub`: NaN stays NaN. -/
def neg : F → F
  | .nan => .nan
  | .inf s => .inf !s
  | .fin s m => .fin (!s) m

/-- The absolute value, as in the bounds of R15. -/
def abs : F → F
  | .nan => .nan
  | .inf _ => .inf false
  | .fin _ m => .fin false m

/-- The sign bit (bit 63, R73) of a value that is not NaN. -/
def sign : F → Bool
  | .nan => false
  | .inf s => s
  | .fin s _ => s

/-- The place of a value other than NaN in the IEEE order: both zeros at 0, the infinities outermost. -/
def place : F → Int
  | .nan => 0
  | .inf false => (infMag : Int)
  | .inf true => -(infMag : Int)
  | .fin false m => (m.val : Int)
  | .fin true m => -(m.val : Int)

/-- `a <= b` on F (IEEE comparison, R49): false when either is NaN. -/
def le (a b : F) : Bool := a != .nan && b != .nan && decide (a.place ≤ b.place)

/-- `a < b` on F (IEEE comparison, R49). -/
def lt (a b : F) : Bool := a != .nan && b != .nan && decide (a.place < b.place)

/-- `a == b` on F (IEEE equality, R49): `−0 == +0`, and NaN equals nothing. -/
def eq (a b : F) : Bool := a != .nan && b != .nan && decide (a.place = b.place)

/-- The value is a zero of either sign. -/
def isZero (a : F) : Bool := a.eq .zero

end F

/-- `fadd` (R13): the correctly rounded sum.
An exact zero sum is `+0` unless both operands are `−0`; opposite infinities give NaN (IEEE 754, PRESUMED, log 2). -/
def fadd : F → F → F
  | .nan, _ => .nan
  | _, .nan => .nan
  | .inf s, .inf t => if s = t then .inf s else .nan
  | .inf s, .fin _ _ => .inf s
  | .fin _ _, .inf t => .inf t
  | .fin s m, .fin t n =>
    let z := (F.fin s m).units + (F.fin t n).units
    if z = 0 then F.zeroOf (s && t) else ofUnits z

/-- `fsub` (R13): the correctly rounded difference. -/
def fsub (a b : F) : F := fadd a b.neg

/-- `fmul` (R13): the correctly rounded product; the sign is the exclusive-or of the operands' signs.
Zero times infinity is NaN (IEEE 754, PRESUMED, log 2). -/
def fmul : F → F → F
  | .nan, _ => .nan
  | _, .nan => .nan
  | .inf s, .inf t => .inf (s != t)
  | .inf s, .fin t n => if n.val = 0 then .nan else .inf (s != t)
  | .fin s m, .inf t => if m.val = 0 then .nan else .inf (s != t)
  | .fin s m, .fin t n => roundTo (s != t) (magUnits m * magUnits n) unitsOne

/-- `fdiv` (R13): the correctly rounded quotient; the sign is the exclusive-or of the operands' signs.
Division of a nonzero number by zero is an infinity; 0/0 and infinity/infinity are NaN (IEEE 754, PRESUMED, log 2). -/
def fdiv : F → F → F
  | .nan, _ => .nan
  | _, .nan => .nan
  | .inf _, .inf _ => .nan
  | .inf s, .fin t _ => .inf (s != t)
  | .fin s _, .inf t => F.zeroOf (s != t)
  | .fin s m, .fin t n =>
    if n.val = 0 then (if m.val = 0 then .nan else .inf (s != t))
    else roundTo (s != t) (magUnits m * unitsOne) (magUnits n)

/-- `ffloor` (R13): the largest integral value not greater than `a`; zeros, infinities and NaN are kept. -/
def ffloor : F → F
  | .nan => .nan
  | .inf s => .inf s
  | .fin s m =>
    let q := (F.fin s m).units / (unitsOne : Int)
    if q = 0 then F.zeroOf s else ofUnits (q * (unitsOne : Int))

/-- `i2f` (R13): the integer `n` as a value of F. -/
def i2f (n : Int) : F := ofUnits (n * (unitsOne : Int))

/-- `2^n` as a value of F for −1022 <= n <= 1023 (R16): biased exponent `n + 1023`, fraction 0 (R73). -/
def pow2 (n : Int) : F := ofMag false ((n + 1023).toNat * fracMod)

/-- The integer a finite value equals, when it equals one. -/
def F.toInt? (a : F) : Option Int :=
  if a.finite && decide (a.units % (unitsOne : Int) = 0) then some (a.units / (unitsOne : Int)) else none

/-- A sum over the operator indices of products `w[j] * x[j]` (R14): a left fold in ascending order from `+0`. -/
def weightedSum (w x : Four F) : F :=
  indices.foldl (fun acc j => fadd acc (fmul (w.get j) (x.get j))) .zero

end Sys2Proof
end

