-- ==== Sys2Proof/Machine/Constants.lean ====
section
/-! DEFINITION. The constants the source fixes (R7), in one place. -/

namespace Sys2Proof.Machine

/-- `MODIDX = 4.0`, the modulation-index constant (R7). -/
def modIdx : F := i2f 4

/-- The reference pitch `440.0` (R7). -/
def refPitch : F := i2f 440

/-- The reference key `69` (R7). -/
def refKey : Int := 69

/-- The semitone divisor `12` (R7). -/
def semitones : F := i2f 12

/-- The default key `69`, the reset value of `KEY` (R7, R31). -/
def defaultKey : Key := 69

end Sys2Proof.Machine
end

