-- ==== Sys2Proof/Config.lean ====
section
/-! DEFINITION. What the configuration fixes (R6, R40 to R47), and the functions the spec leaves open (R8, R15, R16). -/

namespace Sys2Proof

/-- The properties S1, S1b, S2 and S3 of R15, and nothing else. -/
structure SinturnOk (f : F → F) : Prop where
  /-- S1. -/
  s1 : ∀ x : F, x.finite = true → x.abs.le (pow2 1020) = true → (f x).finite = true ∧ (f x).abs.le F.one = true
  /-- S1b: which of the two it is, is not fixed. -/
  s1b : ∀ x : F, x.finite = true → (pow2 1020).lt x.abs = true →
    f x = .nan ∨ ((f x).finite = true ∧ (f x).abs.le F.one = true)
  /-- S2. -/
  s2 : ∀ x : F, x.finite = false → f x = .nan
  /-- S3. -/
  s3 : f F.zero = F.zero

/-- The range on which R16 says something of EXP2: finite `x` with −1022 <= x <= 1023. -/
def inExp2Range (x : F) : Bool := (i2f (-1022)).le x && x.le (i2f 1023)

/-- The properties E1, E2 and E3 of R16, and nothing else. -/
structure Exp2Ok (f : F → F) : Prop where
  /-- E1, for every value of F that equals the integer `n`: `i2f n`, and `−0` beside `+0`, where E3 forces it. -/
  e1 : ∀ (x : F) (n : Int), x.toInt? = some n → -1022 ≤ n → n ≤ 1023 → f x = pow2 n
  /-- E2. -/
  e2 : ∀ x : F, inExp2Range x = true → (f x).finite = true ∧ F.zero.lt (f x) = true
  /-- E3. -/
  e3 : ∀ x y : F, inExp2Range x = true → inExp2Range y = true → x.le y = true → (f x).le (f y) = true

/-- The SINTURN a configuration names by a number (R6, R15): free, with the properties of R15 (log 3).
`none` stands for a fixed admissible function, and nothing can tell which it is. -/
opaque Config.sinturnChoice : Nat → Option { f : F → F // SinturnOk f }

/-- The EXP2 a configuration names by a number (R6, R16): free, with the properties of R16 (log 4).
`none` stands for a fixed admissible function, and nothing can tell which it is. -/
opaque Config.exp2Choice : Nat → Option { f : F → F // Exp2Ok f }

/-- The OUT_CONV a configuration names by a number (R6, R8): free, nothing is known of it (log 5). -/
opaque Config.outConvChoice : Nat → F → HostSample

/-- CFG (R30, R6): every item of the configuration, as plain data.
The three functions are held as the numbers that name them (log 3, 4, 5), and NBUS is the length of `nch` (log 14).
A default value stands where the spec gives one "if the configuration does not name it". -/
structure Cfg where
  /-- `SR` (R45). -/
  sr : F
  /-- `W[i][j]`: row `i` is `w.get i` (R42). -/
  w : Four (Four F)
  /-- `MIX[i]` (R43). -/
  mix : Four F
  /-- `SCALE` (R44): 0.125 by default. -/
  scale : F := pow2 (-3)
  /-- `RATIO[i]` (R40): 1.0 by default. -/
  ratio : Four F := ⟨F.one, F.one, F.one, F.one⟩
  /-- `AMP[i]` (R41): 1.0 by default. -/
  amp : Four F := ⟨F.one, F.one, F.one, F.one⟩
  /-- `KEY_MIN` (R46): 0 by default. -/
  keyMin : Int := 0
  /-- `KEY_MAX` (R46): 127 by default. -/
  keyMax : Int := 127
  /-- `QDEPTH` (R47). -/
  qdepth : Nat
  /-- `BLOCK_LEN` (R47). -/
  blockLen : Nat
  /-- `NCH[b]` for each bus `b` in order (R47). -/
  nch : List Nat
  /-- The number that names SINTURN (R15). -/
  sinturn : Nat
  /-- The number that names EXP2 (R16). -/
  exp2 : Nat
  /-- The number that names OUT_CONV (R8). -/
  outConv : Nat
  /-- The SINTURN the host offers has S1, S1b, S2 and S3 (R15); without them `sinturn` names nothing and RESET refuses (R49, log 3). -/
  sinturnOk : Bool := true
  /-- The EXP2 the host offers has E1, E2 and E3 (R16); without them `exp2` names nothing and RESET refuses (R49, log 4). -/
  exp2Ok : Bool := true
  deriving DecidableEq, Repr

/-- `NBUS` (R47): the number of buses. -/
def Cfg.nbus (c : Cfg) : Nat := c.nch.length

/-- The routing matrix of REF (D17, R145): two chains 0→1 and 2→3. -/
def refW : Four (Four F) :=
  { x0 := ⟨F.zero, F.zero, F.zero, F.zero⟩
    x1 := ⟨F.one, F.zero, F.zero, F.zero⟩
    x2 := ⟨F.zero, F.zero, F.zero, F.zero⟩
    x3 := ⟨F.zero, F.zero, F.one, F.zero⟩ }

/-- The configuration of the test vectors' common start state (95_test_vectors.md), REF among it.
DESIGN CHOICE (log 6): the spec gives SR, W, MIX and the sizes no default, and `State.reset` needs one. -/
def refCfg : Cfg :=
  { sr := i2f 48000
    w := refW
    mix := ⟨F.zero, F.one, F.zero, F.one⟩
    qdepth := 8
    blockLen := 4
    nch := [1]
    sinturn := 0
    exp2 := 0
    outConv := 0 }

end Sys2Proof
end

