-- ==== Sys2Proof/Machine/FreeFunctions.lean ====
section
/-! DEFINITION. SINTURN, EXP2 and OUT_CONV as the machine applies them: the functions of Config, and where the rules fix a value, that value. -/

namespace Sys2Proof

/-- A larger magnitude pattern is a larger magnitude. -/
theorem magUnits_mono {m n : Nat} (h : m ≤ n) : magUnits m ≤ magUnits n := by
  have hm := Nat.mod_lt m (show 0 < fracMod by decide)
  have dm := Nat.div_add_mod m fracMod
  have dn := Nat.div_add_mod n fracMod
  have hd : m / fracMod ≤ n / fracMod := Nat.div_le_div_right h
  unfold magUnits
  generalize m / fracMod = a at *
  generalize n / fracMod = b at *
  generalize m % fracMod = r at *
  generalize n % fracMod = t at *
  rcases Nat.eq_zero_or_pos b with rfl | hb
  · obtain rfl : a = 0 := by omega
    simpa using h
  obtain ⟨k, rfl⟩ : ∃ k, b = k + 1 := ⟨b - 1, by omega⟩
  have hk := Nat.two_pow_pos k
  rcases Nat.eq_zero_or_pos a with rfl | ha
  · rw [if_pos rfl, if_neg (by omega)]
    exact le_trans (by omega : m ≤ fracMod + t) (Nat.le_mul_of_pos_right _ hk)
  rw [if_neg (by omega), if_neg (by omega)]
  rcases Nat.lt_or_eq_of_le hd with hlt | rfl
  · obtain ⟨j, rfl⟩ : ∃ j, k = (a - 1) + 1 + j := ⟨k - (a - 1 + 1), by omega⟩
    calc (fracMod + r) * 2 ^ (a - 1) ≤ (fracMod * 2) * 2 ^ (a - 1) := Nat.mul_le_mul_right _ (by omega)
      _ = fracMod * 2 ^ (a - 1 + 1) := by ring
      _ ≤ (fracMod + t) * 2 ^ (a - 1 + 1 + j) :=
        Nat.mul_le_mul (by omega) (Nat.pow_le_pow_right (by omega) (by omega))
  · exact Nat.mul_le_mul_right _ (by omega)

/-- The order of finite values is the order of their exact values. -/
theorem units_mono_of_place {a b : F} (ha : a.finite = true) (hb : b.finite = true) (h : a.place ≤ b.place) :
    a.units ≤ b.units := by
  match a, b, ha, hb with
  | .fin false m, .fin false n, _, _ =>
    exact Int.ofNat_le.2 (magUnits_mono (Int.ofNat_le.1 h))
  | .fin true m, .fin true n, _, _ =>
    exact Int.neg_le_neg (Int.ofNat_le.2 (magUnits_mono (Int.ofNat_le.1 (Int.neg_le_neg_iff.1 h))))
  | .fin true m, .fin false n, _, _ => simp only [F.units]; omega
  | .fin false m, .fin true n, _, _ =>
    simp only [F.place] at h
    have hm : m.val = 0 := by omega
    have hn : n.val = 0 := by omega
    simp only [F.units, hm, hn]
    decide

/-- A fixed admissible SINTURN, the witness that R15 can be met: `+0` everywhere it may be. -/
def plainSinturn : { f : F → F // SinturnOk f } :=
  ⟨fun x => if x.finite then F.zero else .nan,
   { s1 := fun x hx _ => by simp only [hx]; decide
     s1b := fun x hx _ => .inr (by simp only [hx]; decide)
     s2 := fun x hx => by simp [hx]
     s3 := by decide }⟩

/-- A power of two in the range of R16 is finite and positive, and its place grows with the exponent. -/
theorem pow2_spec {n : Int} (h1 : -1022 ≤ n) (h2 : n ≤ 1023) :
    (pow2 n).finite = true ∧ (pow2 n).place = (n + 1023) * 2 ^ 52 := by
  have hk : (n + 1023).toNat * fracMod < infMag := by
    show (n + 1023).toNat * 4503599627370496 < 0x7FF0000000000000
    omega
  unfold pow2 ofMag
  rw [dif_pos hk]
  refine ⟨rfl, ?_⟩
  show (((n + 1023).toNat * 4503599627370496 : Nat) : Int) = _
  omega

/-- The integral part of a value in the range of R16 is in that range. -/
theorem floor_range {x : F} (h : inExp2Range x = true) :
    x.finite = true ∧ -1022 ≤ x.units / (unitsOne : Int) ∧ x.units / (unitsOne : Int) ≤ 1023 := by
  have lo : i2f (-1022) = .fin true ⟨0x408FF00000000000, by decide⟩ := by decide +kernel
  have hi : i2f 1023 = .fin false ⟨0x408FF80000000000, by decide⟩ := by decide +kernel
  have ulo : (i2f (-1022)).units = -1022 * (unitsOne : Int) := by decide +kernel
  have uhi : (i2f 1023).units = 1023 * (unitsOne : Int) := by decide +kernel
  have hu : (0 : Int) < unitsOne := by decide +kernel
  simp only [inExp2Range, F.le, Bool.and_eq_true, decide_eq_true_eq] at h
  rw [lo, hi] at h
  have hx : x.finite = true := by
    match x with
    | .nan => exact absurd h.1.1.2 (by decide)
    | .inf true => exact absurd h.1.2 (by decide)
    | .inf false => exact absurd h.2.2 (by decide)
    | .fin _ _ => rfl
  have h1 := units_mono_of_place rfl hx h.1.2
  have h2 := units_mono_of_place hx rfl h.2.2
  rw [← lo, ulo] at h1
  rw [← hi, uhi] at h2
  refine ⟨hx, (Int.le_ediv_iff_mul_le hu).2 h1, ?_⟩
  have := Int.ediv_le_ediv hu h2
  rwa [Int.mul_ediv_cancel _ (by omega)] at this

/-- A fixed admissible EXP2, the witness that R16 can be met: `2` to the integral part. -/
def plainExp2 : { f : F → F // Exp2Ok f } :=
  ⟨fun x => pow2 (x.units / (unitsOne : Int)),
   { e1 := fun x n h _ _ => by
       simp only [F.toInt?] at h
       split at h
       · rw [Option.some.inj h]
       · exact absurd h (by simp)
     e2 := fun x h => by
       obtain ⟨_, h1, h2⟩ := floor_range h
       obtain ⟨hf, hp⟩ := pow2_spec h1 h2
       refine ⟨hf, ?_⟩
       have h0 : F.zero.place = 0 := by decide
       have hn : pow2 (x.units / (unitsOne : Int)) ≠ .nan := by intro e; rw [e] at hf; exact absurd hf (by decide)
       simp only [F.lt, Bool.and_eq_true, decide_eq_true_eq, bne_iff_ne, h0, hp]
       exact ⟨⟨by decide, hn⟩, by omega⟩
     e3 := fun x y hx hy hxy => by
       obtain ⟨fx, h1, h2⟩ := floor_range hx
       obtain ⟨fy, h3, h4⟩ := floor_range hy
       obtain ⟨hf, hp⟩ := pow2_spec h1 h2
       obtain ⟨hf', hp'⟩ := pow2_spec h3 h4
       simp only [F.le, Bool.and_eq_true, decide_eq_true_eq] at hxy
       have hle := Int.ediv_le_ediv (show (0 : Int) < unitsOne by decide +kernel) (units_mono_of_place fx fy hxy.2)
       have hn : pow2 (x.units / (unitsOne : Int)) ≠ .nan := by intro e; rw [e] at hf; exact absurd hf (by decide)
       have hn' : pow2 (y.units / (unitsOne : Int)) ≠ .nan := by intro e; rw [e] at hf'; exact absurd hf' (by decide)
       simp only [F.le, Bool.and_eq_true, decide_eq_true_eq, bne_iff_ne, hp, hp']
       exact ⟨⟨hn, hn'⟩, by omega⟩ }⟩

/-- The function the number names: free within R15. -/
def sinturnNamed (id : Nat) : { f : F → F // SinturnOk f } := (Config.sinturnChoice id).getD plainSinturn

/-- The function the number names: free within R16. -/
def exp2Named (id : Nat) : { f : F → F // Exp2Ok f } := (Config.exp2Choice id).getD plainExp2

/-- `SINTURN` (R15).
Where S2 or S3 fixes the value it is computed, so that the model runs there; `sinturn_eq_named` says that this is the named function itself. -/
@[irreducible] def sinturn (id : Nat) (x : F) : F :=
  if x = F.zero then F.zero else if x.finite then (sinturnNamed id).1 x else .nan

/-- `EXP2` (R16).
Where E1 fixes the value it is computed, so that the model runs there; `exp2_eq_named` says that this is the named function itself. -/
@[irreducible] def exp2 (id : Nat) (x : F) : F :=
  match x.toInt? with
  | some n => if -1022 ≤ n ∧ n ≤ 1023 then pow2 n else (exp2Named id).1 x
  | none => (exp2Named id).1 x

/-- `OUT_CONV` (R8): the element a sample becomes. -/
@[irreducible] def outConv (id : Nat) (y : F) : HostSample := Config.outConvChoice id y

end Sys2Proof
end

