-- ==== Sys2Proof/Machine/Pitch.lean ====
section
/-! DEFINITION. The pitch function (R180, R188, R189). -/

namespace Sys2Proof.Machine

/-- `e` of R180: how many octaves key `k` lies above key 69; `k − 69` is exact integer arithmetic (R189). -/
def octaves (k : Int) : F := fdiv (i2f (k - refKey)) semitones

/-- `PITCH(k)` (R180), evaluated left to right: the product with 440 first, then the division by SR. -/
@[irreducible] def pitch (c : Cfg) (k : Int) : F := fdiv (fmul refPitch (exp2 c.exp2 (octaves k))) c.sr

end Sys2Proof.Machine
end

