-- ==== Sys2Proof/Machine/State.lean ====
section
/-! DEFINITION. The state of FMV (R30), its configuration beside it, its outputs, and the host's script; the reasons a step can stop. -/

namespace Sys2Proof.Machine

/-- The registers of one operator (R34 to R38). -/
structure Operator where
  /-- `PHASE[i]` (R35). -/
  phase : F
  /-- `ENV[i]` (R36). -/
  env : F
  /-- `OUT[i]` (R37). -/
  out : F
  /-- `DIAG[i]` (R38). -/
  diag : Bool
  deriving DecidableEq, Repr

/-- A diagnostic record (R242). -/
inductive Diag where
  /-- `Diag(OPNF, i, phase, amplitude, envelope, phaseIncrement)`, code 1. -/
  | opnf (op : Fin 4) (phase amplitude envelope phaseIncrement : F)
  /-- `Diag(MIXNF, value)`, code 2. -/
  | mixnf (value : F)
  deriving DecidableEq, Repr

/-- One line of a host script (R100): what one of the host's contexts does. -/
inductive HostEvent where
  /-- `RESET <cfg>`: the host constructs a voice (R270). -/
  | reset (cfg : Cfg)
  /-- `PUSH <command>`: HOST_CTRL enqueues a word (R217). -/
  | push (w : Word)
  /-- `BLOCK`: HOST_AUDIO requests one BLOCK step (R211). -/
  | block
  deriving DecidableEq, Repr

/-- The state of FMV (R30), with the configuration (fixed at reset, R48), the outputs R218 lets a claim observe, and the host's script. -/
structure State where
  /-- `KEY` (R31). -/
  key : Key
  /-- `PINC` (R32). -/
  pinc : F
  /-- The operator register file (R34 to R38). -/
  op : Four Operator
  /-- `MIXDIAG` (R39). -/
  mixdiag : Bool
  /-- `CQ` (R50), head first. -/
  cq : List Word
  /-- `REFUSED` (R51). -/
  refused : Bool
  /-- `CFG` (R30, R40 to R47). -/
  cfg : Cfg
  /-- The diagnostic stream since RESET (R242), an output: first emitted first. -/
  diags : List Diag
  /-- `y[0..]` of the last BLOCK (R218), an output. -/
  samples : List F
  /-- The host's output buffers `Buf[b][c][k]` (R71), an output. -/
  bufs : List (List (List HostSample))
  /-- `KEEP_ALIVE` as the last BLOCK returned it (R214), an output; `none` before the first BLOCK (log 12). -/
  keepAlive : Option Bool
  /-- The model's own field (log 7): what is left of the host's script (R100). -/
  host : List HostEvent
  deriving DecidableEq, Repr

/-- FMV has no fault outcome (R18, R240): nothing raises a fault, and the type has no value. -/
inductive Fault where
  deriving DecidableEq, Repr

/-- Why a step gives its input no meaning. -/
inductive Refusal where
  /-- Raised by `exec` for an instruction that has no meaning yet; no arm raises it. Safe. -/
  | notModelled (mnemonic : String)
  /-- `BAD_CONFIG`, raised by RESET of a configuration that R49 refuses: no voice exists and the run ends (R18, R270, R274). Safe. -/
  | badConfig
  deriving DecidableEq, Repr

/-- The registers of an operator after RESET (R270). -/
def Operator.reset : Operator := { phase := F.zero, env := F.zero, out := F.zero, diag := false }

/-- The machine right after `RESET` of the configuration `refCfg` (R270; the configuration is a DESIGN CHOICE, log 6).
The outputs and the script are empty, and the buffers hold element code 0 (DESIGN CHOICE, log 12, 13, 7). -/
def State.reset : State :=
  { key := defaultKey
    pinc := pitch refCfg refKey
    op := ⟨Operator.reset, Operator.reset, Operator.reset, Operator.reset⟩
    mixdiag := false
    cq := []
    refused := false
    cfg := refCfg
    diags := []
    samples := []
    bufs := [[[0, 0, 0, 0]]]
    keepAlive := none
    host := [] }

end Sys2Proof.Machine
end

