-- ==== Sys2Proof/Machine/Operands.lean ====
section
/-! DEFINITION. The operand of NOTE_ON and NOTE_OFF, and the range check on it. -/

namespace Sys2Proof.Machine

/-- The key operand as an integer, `sext_16` of the field (R92): no scaling, no zero extension. -/
def keyInt (k : Key) : Int := k.toInt

/-- `KEY_MIN <= k <= KEY_MAX` (R181, R182). -/
def inKeyRange (c : Cfg) (k : Key) : Bool := decide (c.keyMin ≤ keyInt k) && decide (keyInt k ≤ c.keyMax)

end Sys2Proof.Machine
end

