-- ==== Sys2Proof/Machine/Ops.lean ====
section
/-! DEFINITION. Named operations over the registers, the streams and the buffers.

FMV has no trap to take and none to return from (R240, R245, R246).
What stands in that place is the report of an exceptional condition, one shared operation, `reportOnce` (R243). -/

namespace Sys2Proof.Machine

/-- A change of the register set of operator `i`, every other register kept (R34). -/
def modifyOp (i : Fin 4) (f : Operator → Operator) (s : State) : State :=
  { s with op := s.op.set i (f (s.op.get i)) }

/-- `PHASE[i] <- v` (R35). -/
def setPhase (i : Fin 4) (v : F) (s : State) : State := modifyOp i (fun o => { o with phase := v }) s

/-- `ENV[i] <- v` (R36). -/
def setEnv (i : Fin 4) (v : F) (s : State) : State := modifyOp i (fun o => { o with env := v }) s

/-- `OUT[i] <- v` (R37). -/
def setOut (i : Fin 4) (v : F) (s : State) : State := modifyOp i (fun o => { o with out := v }) s

/-- `emit d` (R11, R242): the record goes to the end of the diagnostic stream. -/
def emit (d : Diag) (stream : List Diag) : List Diag := stream ++ [d]

/-- The report of a condition (R243): the record `d` is emitted when the condition is raised and its sticky flag is still clear. -/
def reportOnce (raised flag : Bool) (d : Diag) (stream : List Diag) : List Diag :=
  if raised && !flag then emit d stream else stream

/-- What a guard makes of a value (R112, R161): a non-finite value becomes `+0` (R17). -/
def guarded (v : F) : F := if v.finite then v else F.zero

/-- `write Buf[b][c][k] <- OUT_CONV(y)` for every channel of every bus (R213). -/
def writeBuffers (k : Nat) (y : F) (s : State) : State :=
  { s with bufs := s.bufs.map (fun bus => bus.map (fun channel => channel.set k (outConv s.cfg.outConv y))) }

/-- The sample of a tick becomes part of the block's observation (R218). -/
def observeSample (y : F) (s : State) : State := { s with samples := s.samples ++ [y] }

/-- The refusal mark is set and nothing else changes (R51, R182). -/
def markRefused (s : State) : State := { s with refused := true }

/-- An outcome and what is done with its next state; a stop stays that stop. -/
def andThen (o : Host.Outcome State Fault Refusal) (f : State → Host.Outcome State Fault Refusal) :
    Host.Outcome State Fault Refusal :=
  match o with
  | .next s => f s
  | .fault r => .fault r
  | .refused r => .refused r

end Sys2Proof.Machine
end

