-- ==== Sys2Proof/Machine/Flags.lean ====
section
/-! DEFINITION. The flags FMV has (R53): the sticky `DIAG[i]` and `MIXDIAG`, set by the two guards (R241 to R243); and the note state read off ENV (R33). -/

namespace Sys2Proof.Machine

/-- The record of condition OPNF for operator `i` (R112, R242): the phase is the one before this sample's update. -/
def opnfRecord (i : Fin 4) (s : State) : Diag :=
  .opnf i (s.op.get i).phase (s.cfg.amp.get i) (s.op.get i).env s.pinc

/-- Condition OPNF (R112, R241): a non-finite output `o` of operator `i` sets `DIAG[i]`, and the first time emits the record. -/
def guardOperator (i : Fin 4) (o : F) (s : State) : State :=
  { s with
    op := s.op.set i { s.op.get i with diag := (s.op.get i).diag || !o.finite }
    diags := reportOnce (!o.finite) (s.op.get i).diag (opnfRecord i s) s.diags }

/-- Condition MIXNF (R161, R241): a non-finite mix `y` sets `MIXDIAG`, and the first time emits the record. -/
def guardMix (y : F) (s : State) : State :=
  { s with
    mixdiag := s.mixdiag || !y.finite
    diags := reportOnce (!y.finite) s.mixdiag (.mixnf y) s.diags }

/-- The code of a record (R241, R242). -/
def Diag.code : Diag → Nat
  | .opnf .. => 1
  | .mixnf _ => 2

/-- Sounding (R33): `ENV[0] = 1.0`. -/
def sounding (s : State) : Bool := s.op.x0.env.eq F.one

/-- Idle (R33): `ENV[0] = 0.0`. -/
def idle (s : State) : Bool := s.op.x0.env.eq F.zero

end Sys2Proof.Machine
end

