-- ==== Sys2Proof/Machine/Operator.lean ====
section
/-! DEFINITION. The operator family (41_operator.md): ADVANCE, START, STOP. -/

namespace Sys2Proof.Machine

/-- START(i) (R117): `ENV[i] <- 1.0`. -/
def start (i : Fin 4) (s : State) : State := setEnv i F.one s

/-- STOP(i) (R118): `ENV[i] <- +0`. -/
def stop (i : Fin 4) (s : State) : State := setEnv i F.zero s

/-- The argument of the sine (R110, R111): the modulation is added to the phase in cycles, scaled by MODIDX. -/
def sineArg (i : Fin 4) (m : F) (s : State) : F := fadd (s.op.get i).phase (fmul modIdx m)

/-- The operator's output before the guard (R111), from the phase before this sample's update. -/
def rawOutput (i : Fin 4) (m : F) (s : State) : F :=
  fmul (fmul (s.cfg.amp.get i) (s.op.get i).env) (sinturn s.cfg.sinturn (sineArg i m s))

/-- `frac` of R113: the wrap into [0, 1) by subtracting the floor. -/
def frac (t : F) : F := fsub t (ffloor t)

/-- The phase after this sample (R113). -/
def nextPhase (i : Fin 4) (s : State) : F :=
  frac (fadd (s.op.get i).phase (fmul (s.cfg.ratio.get i) s.pinc))

/-- ADVANCE(i, m) (R110): the guard, then `OUT[i]`, then `PHASE[i]`. -/
def advance (i : Fin 4) (m : F) (s : State) : State :=
  setPhase i (nextPhase i s) (setOut i (guarded (rawOutput i m s)) (guardOperator i (rawOutput i m s) s))

end Sys2Proof.Machine
end

