-- ==== Sys2Proof/Machine/VoiceControl.lean ====
section
/-! DEFINITION. The voice-control family (44_voice_control.md): what applying a command does. -/

namespace Sys2Proof.Machine

/-- NOP (R184): changes no state and emits nothing. -/
def execNop (s : State) : Host.Outcome State Fault Refusal := .next s

/-- An accepted NOTE_ON (R181): KEY, PINC, and START of every operator. -/
def noteOn (k : Key) (s : State) : State :=
  indices.foldl (fun t i => start i t) { s with key := k, pinc := pitch s.cfg (keyInt k) }

/-- NOTE_ON(k) (R181); a key out of range is refused by the mark, and DRAIN goes on (R182). -/
def execNoteOn (k : Key) (s : State) : Host.Outcome State Fault Refusal :=
  .next (if inKeyRange s.cfg k then noteOn k s else markRefused s)

/-- An accepted NOTE_OFF (R183): STOP of every operator; KEY and PINC are kept. -/
def noteOff (s : State) : State := indices.foldl (fun t i => stop i t) s

/-- NOTE_OFF(k) (R183): accepted only if `k == KEY`, otherwise ignored. -/
def execNoteOff (k : Key) (s : State) : Host.Outcome State Fault Refusal :=
  .next (if k = s.key then noteOff s else s)

/-- UNKNOWN(op) (R184): executes as NOP, whatever `op` is. -/
def execUnknown (_op : BitVec 8) (s : State) : Host.Outcome State Fault Refusal := .next s

end Sys2Proof.Machine
end

