-- ==== Sys2Proof/Machine/Routing.lean ====
section
/-! DEFINITION. The routing family (42_routing.md): MODIN. -/

namespace Sys2Proof.Machine

/-- `OUT[0..3]` as the operators hold them now (R37, R141). -/
def outputs (s : State) : Four F := ⟨s.op.x0.out, s.op.x1.out, s.op.x2.out, s.op.x3.out⟩

/-- MODIN(i) (R140): row `i` of the routing matrix over the outputs; a pure read. -/
def modin (i : Fin 4) (s : State) : F := weightedSum (s.cfg.w.get i) (outputs s)

end Sys2Proof.Machine
end

