-- ==== Sys2Proof/Machine/Mixer.lean ====
section
/-! DEFINITION. The mixer family (43_mixer.md): MIXSUM. -/

namespace Sys2Proof.Machine

/-- The mixed sample before the guard (R160): the scale multiplies the finished sum. -/
def rawMix (s : State) : F := fmul s.cfg.scale (weightedSum s.cfg.mix (outputs s))

/-- The sample MIXSUM returns (R160, R161). -/
def mixSample (s : State) : F := guarded (rawMix s)

/-- What MIXSUM writes (R161): MIXDIAG and the stream, no operator register. -/
def mixsum (s : State) : State := guardMix (rawMix s) s

end Sys2Proof.Machine
end

