-- ==== Sys2Proof/Machine/Reset.lean ====
section
/-! DEFINITION. RESET: the well-formedness of a configuration (R49) and the construction of a voice (R270 to R272). -/

namespace Sys2Proof.Machine

/-- `finite(W[i][j])`, and `W[i][j] == 0` for `j >= i` (R42, R49, R142). -/
def wfRouting (c : Cfg) : Bool :=
  indices.all fun i => indices.all fun j =>
    ((c.w.get i).get j).finite && (decide (j < i) || ((c.w.get i).get j).isZero)

/-- The checks on MIX, AMP and RATIO (R49). -/
def wfOperators (c : Cfg) : Bool :=
  indices.all fun i =>
    (c.mix.get i).finite && (c.amp.get i).finite && (c.ratio.get i).finite && F.zero.le (c.ratio.get i)

/-- The checks on the key range (R46, R49). -/
def wfKeys (c : Cfg) : Bool :=
  decide (c.keyMin ≤ refKey) && decide (refKey ≤ c.keyMax) && decide (-32768 ≤ c.keyMin) && decide (c.keyMax ≤ 32767)

/-- The checks on the pitches at the ends of the key range (R49). -/
def wfPitch (c : Cfg) : Bool :=
  F.zero.lt (pitch c c.keyMin) && (pitch c c.keyMax).finite &&
    indices.all fun i => (fmul (c.ratio.get i) (pitch c c.keyMax)).finite

/-- The checks on the sizes (R47, R49). -/
def wfSizes (c : Cfg) : Bool :=
  decide (1 ≤ c.qdepth) && decide (1 ≤ c.blockLen) && decide (1 ≤ c.nbus) && c.nch.all fun n => decide (1 ≤ n)

/-- The checks on SINTURN and EXP2 (R15, R16, R49): whether the offered functions have their properties is a fact of the configuration,
and every number names a function that has them (log 3, 4). -/
def wfFunctions (c : Cfg) : Bool := c.sinturnOk && c.exp2Ok

/-- `wf(CFG)` (R49). -/
def wfCfg (c : Cfg) : Bool :=
  c.sr.finite && F.zero.lt c.sr && wfRouting c && wfOperators c && c.scale.finite && wfKeys c && wfPitch c && wfSizes c && wfFunctions c

/-- Output buffers of the configured shape (R71, R280), every element the code 0 (DESIGN CHOICE, log 13). -/
def blankBuffers (c : Cfg) : List (List (List HostSample)) :=
  c.nch.map fun n => List.replicate n (List.replicate c.blockLen 0)

/-- The voice RESET constructs (R270), with the host's remaining script: nothing of an old voice survives (R272). -/
def construct (c : Cfg) (host : List HostEvent) : State :=
  { key := defaultKey
    pinc := pitch c refKey
    op := ⟨Operator.reset, Operator.reset, Operator.reset, Operator.reset⟩
    mixdiag := false
    cq := []
    refused := false
    cfg := c
    diags := []
    samples := []
    bufs := blankBuffers c
    keepAlive := none
    host := host }

/-- RESET(CFG) (R270): an ill-formed configuration is refused, and no voice exists. -/
def resetVoice (c : Cfg) (s : State) : Host.Outcome State Fault Refusal :=
  if wfCfg c then .next (construct c s.host) else .refused .badConfig

end Sys2Proof.Machine
end

