-- ==== Sys2Proof/Machine/RenderLoop.lean ====
section
/-! DEFINITION. The render-loop family (45_render_loop.md): TICK, DRAIN, BLOCK, PUSH, and the host's script that asks for them (R100). -/

namespace Sys2Proof.Machine

/-- MODIN(i) followed at once by ADVANCE(i, MODIN(i)) (R143). -/
def runOperator (s : State) (i : Fin 4) : State := advance i (modin i s) s

/-- The four operators of one sample, in ascending order (R143, R210). -/
def runOperators (s : State) : State := indices.foldl runOperator s

/-- What follows the operators in a tick (R210): MIXSUM, the buffer writes of sample `k`, and the observation of the sample. -/
def finishTick (k : Nat) (s : State) : State :=
  observeSample (mixSample s) (writeBuffers k (mixSample s) (mixsum s))

/-- TICK(k) (R210). -/
def tick (s : State) (k : Nat) : State := finishTick k (runOperators s)

/-- The ticks of a block (R211): `k` in `0..BLOCK_LEN-1`, then `KEEP_ALIVE = true` (R214). -/
def render (s : State) : State :=
  { (List.range s.cfg.blockLen).foldl tick { s with samples := [] } with keepAlive := some true }

/-- The words DRAIN still has to apply, oldest first: each leaves CQ and is then applied (R212). -/
def drainWords : List Word → State → Host.Outcome State Fault Refusal
  | [], s => .next s
  | w :: rest, s => andThen (exec (decode w) { s with cq := rest }) (drainWords rest)

/-- DRAIN (R212). -/
def drain (s : State) : Host.Outcome State Fault Refusal := drainWords s.cq s

/-- BLOCK (R211): DRAIN, then the ticks; one atomic step (R76). -/
def block (s : State) : Host.Outcome State Fault Refusal := andThen (drain s) fun t => .next (render t)

/-- Whether PUSH is enabled (R217): it is held while `length(CQ) == QDEPTH`. -/
def pushEnabled (s : State) : Bool := decide (s.cq.length ≠ s.cfg.qdepth)

/-- An enabled PUSH(w) (R217): the word goes to the tail of CQ. -/
def push (w : Word) (s : State) : State := { s with cq := s.cq ++ [w] }

/-- The host's first enabled event and the script without it (log 7).
A PUSH that is held waits, with the PUSHes behind it, for the next BLOCK or RESET of the script, which goes ahead (R18, R217). -/
def nextEvent (canPush : Bool) : List HostEvent → Option (HostEvent × List HostEvent)
  | [] => none
  | .push w :: rest =>
    if canPush then some (.push w, rest)
    else (nextEvent canPush rest).map fun found => (found.1, .push w :: found.2)
  | .block :: rest => some (.block, rest)
  | .reset c :: rest => some (.reset c, rest)

/-- One step of the agent the event belongs to (R19, R270). -/
def takeEvent (e : HostEvent) (s : State) : Host.Outcome State Fault Refusal :=
  match e with
  | .reset c => resetVoice c s
  | .push w => .next (push w s)
  | .block => block s

end Sys2Proof.Machine
end

