-- ==== Sys2Proof/Machine/Step.lean ====
section
/-! DEFINITION. One step: the host's first enabled event. -/

namespace Sys2Proof.Machine

/-- One step of one agent (R18, R19): the host's first enabled event; with none enabled, FMV does nothing (R273, log 8). -/
def step (s : State) : Host.Outcome State Fault Refusal :=
  match nextEvent (pushEnabled s) s.host with
  | none => .next s
  | some (e, rest) => takeEvent e { s with host := rest }

/-- `s` with the command word alone in CQ and a BLOCK as the host's next event, so that the very next step drains and applies it (log 15). -/
def State.withFetchWord (s : State) (nbits w : Nat) : State :=
  { s with cq := [BitVec.ofNat 32 (w % 2 ^ nbits)], host := .block :: s.host }

end Sys2Proof.Machine
end

