-- ==== Sys2Proof/Machine/Assembler.lean ====
section
/-! DEFINITION. The command syntax (R99) and the words it stands for; the reading of a line of text. -/

namespace Sys2Proof.Machine

/-- One line of command syntax (R99), its operand already read. -/
inductive AsmLine where
  /-- `NOP`. -/
  | nop
  /-- `NOTEON <key>`. -/
  | noteon (key : Int)
  /-- `NOTEOFF <key>`. -/
  | noteoff (key : Int)
  /-- `.word <hex32>`: any raw word. -/
  | word (n : Nat)
  deriving DecidableEq, Repr

/-- A key operand in −32768..32767 as its field; any other operand is refused (R99). -/
def asmKey (k : Int) : Option Key :=
  if -32768 ≤ k ∧ k ≤ 32767 then some (BitVec.ofInt 16 k) else none

/-- The word a line stands for (R99); `none` is the assembler's refusal. -/
def assemble : AsmLine → Option Word
  | .nop => some (encode .nop)
  | .noteon k => (asmKey k).map fun f => encode (.noteOn f)
  | .noteoff k => (asmKey k).map fun f => encode (.noteOff f)
  | .word n => if n < 2 ^ 32 then some (BitVec.ofNat 32 n) else none

/-- The value of a digit character, upper or lower case. -/
def digitVal (c : Char) : Nat :=
  if '0' ≤ c ∧ c ≤ '9' then c.toNat - '0'.toNat
  else if 'a' ≤ c ∧ c ≤ 'f' then c.toNat - 'a'.toNat + 10
  else if 'A' ≤ c ∧ c ≤ 'F' then c.toNat - 'A'.toNat + 10
  else 16

/-- A nonempty numeral in the given base. -/
def readNat (base : Nat) (cs : List Char) : Option Nat :=
  if cs ≠ [] ∧ cs.all (fun c => decide (digitVal c < base)) = true then
    some (cs.foldl (fun n c => n * base + digitVal c) 0)
  else none

/-- A signed decimal integer (R99). -/
def readInt : List Char → Option Int
  | '-' :: cs => (readNat 10 cs).map fun n => -(n : Int)
  | cs => (readNat 10 cs).map fun n => (n : Int)

/-- A hexadecimal literal `0x...` (R10). -/
def readHex : List Char → Option Nat
  | '0' :: 'x' :: cs => readNat 16 cs
  | _ => none

/-- A blank between the words of a line: a space or a tab (DESIGN CHOICE, log 19). -/
def isBlank (c : Char) : Bool := c = ' ' || c = '\t'

/-- The words of a line, split at blanks. -/
def tokens : List Char → List (List Char)
  | [] => []
  | c :: cs =>
    if isBlank c then tokens cs
    else match cs, tokens cs with
      | d :: _, t :: ts => if isBlank d then [c] :: t :: ts else (c :: t) :: ts
      | _, ts => [c] :: ts

/-- The words of a line in lower case, without its comment (R99: case-insensitive, a comment from `;` on).
A script line (R100) is read through it too, which is the model's choice for its letter case (DESIGN CHOICE, log 19). -/
def lineTokens (line : List Char) : List (List Char) := tokens ((line.takeWhile (· ≠ ';')).map Char.toLower)

/-- The words of one command (R99): a mnemonic and its operand. -/
def readCommand (ts : List (List Char)) : Option AsmLine :=
  match ts with
  | [['n', 'o', 'p']] => some .nop
  | [['n', 'o', 't', 'e', 'o', 'n'], k] => (readInt k).map .noteon
  | [['n', 'o', 't', 'e', 'o', 'f', 'f'], k] => (readInt k).map .noteoff
  | [['.', 'w', 'o', 'r', 'd'], h] => (readHex h).map .word
  | _ => none

/-- A line of command syntax (R99). -/
def readLine (line : List Char) : Option AsmLine := readCommand (lineTokens line)

end Sys2Proof.Machine
end

