-- ==== Sys2Proof/Safety.lean ====
section
/-! DEFINITION. What counts as a good state and a good step, in the terms the claims use. -/

namespace Sys2Proof.Machine

/-- `+0 <= x < 1`, and `x` is not `−0` (R35). -/
def inUnit (x : F) : Prop := F.zero.le x = true ∧ x.lt F.one = true ∧ x ≠ F.zeroOf true

/-- Every phase accumulator lies in [0, 1) (R35, R114). -/
def phasesInUnit (s : State) : Prop := ∀ i, inUnit (s.op.get i).phase

/-- Every operator output is finite (R37). -/
def outputsFinite (s : State) : Prop := ∀ i, (s.op.get i).out.finite = true

/-- Every rendered sample is finite (R163 item 1). -/
def samplesFinite (s : State) : Prop := ∀ y ∈ s.samples, y.finite = true

/-- Every gate holds exactly 0.0 or 1.0, and all hold the same (R36, R33). -/
def gatesAgree (s : State) : Prop :=
  ∀ i, (s.op.get i).env = s.op.x0.env ∧ ((s.op.get i).env = F.zero ∨ (s.op.get i).env = F.one)

/-- What voice control keeps: a well-formed configuration (R49), a key in range (R31), the increment of that key (R32), and agreeing gates (R33). -/
def voiceOk (s : State) : Prop :=
  wfCfg s.cfg = true ∧ inKeyRange s.cfg s.key = true ∧ s.pinc = pitch s.cfg (keyInt s.key) ∧ gatesAgree s

/-- The keys whose pitch R16 says something of: the octave number lies in −1022..1023 for every key from −12195 to 12345 (log 17). -/
def keysInExp2Range (c : Cfg) : Prop := -12195 ≤ c.keyMin ∧ c.keyMax ≤ 12345

/-- `voiceOk`, and phases in [0, 1) where EXP2 is known on the whole key range (R114, log 17). -/
def phaseOk (s : State) : Prop := voiceOk s ∧ (keysInExp2Range s.cfg → phasesInUnit s)

/-- CQ holds at most QDEPTH words (R50). -/
def queueBounded (s : State) : Prop := s.cq.length ≤ s.cfg.qdepth

/-- The buffers have the configured shape (R71, R280). -/
def bufsShaped (s : State) : Prop :=
  s.bufs.map (fun bus => bus.map List.length) = s.cfg.nch.map (fun n => List.replicate n s.cfg.blockLen)

/-- The record is an OPNF record of operator `i` (R242). -/
def isOpnf (i : Fin 4) : Diag → Bool
  | .opnf j _ _ _ _ => decide (j = i)
  | .mixnf _ => false

/-- The record is an MIXNF record (R242). -/
def isMixnf : Diag → Bool
  | .opnf .. => false
  | .mixnf _ => true

/-- One record for each sticky flag that is set, and no other record (R243). -/
def streamMatchesFlags (s : State) : Prop :=
  (∀ i, s.diags.countP (isOpnf i) = (s.op.get i).diag.toNat) ∧ s.diags.countP isMixnf = s.mixdiag.toNat

/-- The event the next step takes is a RESET. -/
def nextIsReset (s : State) : Bool :=
  match nextEvent (pushEnabled s) s.host with
  | some (.reset _, _) => true
  | _ => false

/-- The next state of an outcome, or the state itself where the outcome is a stop. -/
def nextOr (s : State) (o : Host.Outcome State Fault Refusal) : State :=
  match o with
  | .next t => t
  | .fault _ => s
  | .refused _ => s

/-- The effect of one command word (R212). -/
def applyWord (s : State) (w : Word) : State := nextOr s (exec (decode w) s)

/-- Two states that differ at most in the outputs of R30: the stream, the samples, the buffers, KEEP_ALIVE. -/
def sameButOutputs (s t : State) : Prop :=
  { s with diags := [], samples := [], bufs := [], keepAlive := none } =
    { t with diags := [], samples := [], bufs := [], keepAlive := none }

/-- The pattern `p` is the one nearest to `num / den` units among all patterns, and on a tie the even one (R13). -/
def nearestPattern (num den p : Nat) : Prop :=
  ∀ q : Nat, |(magUnits p * den : Int) - num| ≤ |(magUnits q * den : Int) - num| ∧
    (q ≠ p → |(magUnits p * den : Int) - num| = |(magUnits q * den : Int) - num| → p % 2 = 0)

/-- The phase of one operator after one more sample, whatever its gate (R113). -/
def phaseStep (s : State) (i : Fin 4) (p : F) : F :=
  fsub (fadd p (fmul (s.cfg.ratio.get i) s.pinc)) (ffloor (fadd p (fmul (s.cfg.ratio.get i) s.pinc)))

end Sys2Proof.Machine
end

