-- ==== Sys2Proof/Certificates/Slice0/Obligations.lean ====
section
/-! DEFINITION. The statements for the provers. Each says in its docstring which sentence of the spec it formalises.

None of them rests on a value of `State.host` at reset or of an opaque function of Config beyond the properties of R15 and R16. -/

open Sys2Proof Sys2Proof.Machine

/-! ### The value set F and its primitives (00_scope.md section 5.1) -/

/-- R73: bit 63 is the sign, bits 62..52 the biased exponent, bits 51..0 the fraction of a value of F.
That every pattern with exponent 2047 and a nonzero fraction is one and the same NaN is the model's reading of R12 (DEDUCED, log 1). -/
def Obligations.PatternsStandForTheirValues : Prop :=
  ∀ (sgn : BitVec 1) (ex : BitVec 11) (fr : BitVec 52),
    let x := F.ofBits (sgn ++ ex ++ fr)
    let mag : Nat := if ex.toNat = 0 then fr.toNat else (2 ^ 52 + fr.toNat) * 2 ^ (ex.toNat - 1)
    (ex.toNat < 2047 → x.finite = true ∧ x.units = (if sgn = 1 then -(mag : Int) else mag) ∧ x.sign = (sgn = 1 : Bool)) ∧
      (ex.toNat = 2047 → x = if fr = 0 then .inf (sgn = 1 : Bool) else .nan)

/-- R13: `fadd` is the correctly rounded sum; a pattern past the largest finite one is an overflow, as in IEEE 754. -/
def Obligations.SumIsCorrectlyRounded : Prop :=
  ∀ a b : F, a.finite = true → b.finite = true → a.units + b.units ≠ 0 →
    ∃ p : Nat, nearestPattern (a.units + b.units).natAbs 1 p ∧
      ((p < infMag → (fadd a b).finite = true ∧
          (fadd a b).units = if a.units + b.units < 0 then -(magUnits p : Int) else magUnits p) ∧
        (infMag ≤ p → fadd a b = .inf (decide (a.units + b.units < 0))))

/-- R13: `fmul` is the correctly rounded product, its sign the exclusive-or of the operands' signs. -/
def Obligations.ProductIsCorrectlyRounded : Prop :=
  ∀ a b : F, a.finite = true → b.finite = true →
    ∃ p : Nat, nearestPattern (a.units.natAbs * b.units.natAbs) unitsOne p ∧
      ((p < infMag → (fmul a b).finite = true ∧ (fmul a b).sign = (a.sign != b.sign) ∧ (fmul a b).units.natAbs = magUnits p) ∧
        (infMag ≤ p → fmul a b = .inf (a.sign != b.sign)))

/-- R13: `fdiv` is the correctly rounded quotient, its sign the exclusive-or of the operands' signs. -/
def Obligations.QuotientIsCorrectlyRounded : Prop :=
  ∀ a b : F, a.finite = true → b.finite = true → b.units ≠ 0 →
    ∃ p : Nat, nearestPattern (a.units.natAbs * unitsOne) b.units.natAbs p ∧
      ((p < infMag → (fdiv a b).finite = true ∧ (fdiv a b).sign = (a.sign != b.sign) ∧ (fdiv a b).units.natAbs = magUnits p) ∧
        (infMag ≤ p → fdiv a b = .inf (a.sign != b.sign)))

/-- R13: `ffloor(a)` is the largest integral value not greater than `a`; zeros, infinities and NaN are kept. -/
def Obligations.FloorIsLargestIntegralBelow : Prop :=
  (∀ a : F, a.finite = true → (ffloor a).finite = true ∧
      (ffloor a).units % (unitsOne : Int) = 0 ∧ (ffloor a).units ≤ a.units ∧ a.units < (ffloor a).units + unitsOne) ∧
    (∀ s : Bool, ffloor (F.zeroOf s) = F.zeroOf s) ∧ (∀ a : F, a.finite = false → ffloor a = a)

/-- R13: `i2f(n)` is exact for |n| < 2^53. -/
def Obligations.IntegersConvertExactly : Prop :=
  ∀ n : Int, n.natAbs < 2 ^ 53 → (i2f n).finite = true ∧ (i2f n).units = n * unitsOne ∧ (i2f n ≠ F.zeroOf true)

/-- R13, the last item: the signs of zero sums and zero products.
The other results for zeros and the results for non-finite operands (R144 items 3 and 4 and R116 item 2 among them) are those of IEEE 754,
which R13 only names: the model's choice there is log 2 (PRESUMED). -/
def Obligations.ZeroAndNonFiniteOperands : Prop :=
  (fadd F.zero (F.zeroOf true) = F.zero ∧ fadd (F.zeroOf true) F.zero = F.zero ∧ (∀ s : Bool, fadd (F.zeroOf s) (F.zeroOf s) = F.zeroOf s) ∧
      ∀ x : F, x.finite = true → x.units ≠ 0 → fadd x x.neg = F.zero) ∧
    (∀ (s : Bool) (x : F), x.finite = true →
      fmul (F.zeroOf s) x = F.zeroOf (s != x.sign) ∧ fmul x (F.zeroOf s) = F.zeroOf (x.sign != s)) ∧
    (∀ (s : Bool) (x : F), x.finite = true → fadd (.inf s) x = .inf s ∧ fadd x (.inf s) = .inf s) ∧
    (∀ s : Bool, fadd (.inf s) (.inf s) = .inf s ∧ fadd (.inf s) (.inf !s) = .nan) ∧
    (∀ s t : Bool, fmul (F.zeroOf s) (.inf t) = .nan ∧ fmul (.inf t) (F.zeroOf s) = .nan ∧ fmul (.inf s) (.inf t) = .inf (s != t)) ∧
    (∀ (s : Bool) (x : F), x.finite = true → x.units ≠ 0 →
      fmul (.inf s) x = .inf (s != x.sign) ∧ fmul x (.inf s) = .inf (x.sign != s) ∧ fdiv x (F.zeroOf s) = .inf (x.sign != s)) ∧
    (∀ (s : Bool) (x : F), x.finite = true → fdiv (.inf s) x = .inf (s != x.sign) ∧ fdiv x (.inf s) = F.zeroOf (x.sign != s)) ∧
    (∀ s t : Bool, fdiv (F.zeroOf s) (F.zeroOf t) = .nan ∧ fdiv (.inf s) (.inf t) = .nan) ∧
    ∀ x : F, fadd .nan x = .nan ∧ fadd x .nan = .nan ∧ fmul .nan x = .nan ∧ fmul x .nan = .nan ∧ fdiv .nan x = .nan ∧ fdiv x .nan = .nan

/-- R15: every SINTURN a configuration can name has S1, S1b, S2 and S3. That every number names an admissible one is a DESIGN CHOICE (log 3). -/
def Obligations.SinturnHasItsProperties : Prop :=
  ∀ id : Nat,
    (∀ x : F, x.finite = true → x.abs.le (pow2 1020) = true →
        (sinturn id x).finite = true ∧ (sinturn id x).abs.le F.one = true) ∧
      (∀ x : F, x.finite = true → (pow2 1020).lt x.abs = true →
        sinturn id x = .nan ∨ ((sinturn id x).finite = true ∧ (sinturn id x).abs.le F.one = true)) ∧
      (∀ x : F, x.finite = false → sinturn id x = .nan) ∧ sinturn id F.zero = F.zero

/-- R16: every EXP2 a configuration can name has E1, E2 and E3. That every number names an admissible one is a DESIGN CHOICE (log 4). -/
def Obligations.Exp2HasItsProperties : Prop :=
  ∀ id : Nat,
    (∀ n : Int, -1022 ≤ n → n ≤ 1023 →
        (exp2 id (i2f n)).finite = true ∧ (exp2 id (i2f n)).units = 2 ^ (n + 1074).toNat) ∧
      (∀ x : F, x.finite = true → (i2f (-1022)).le x = true → x.le (i2f 1023) = true →
        (exp2 id x).finite = true ∧ F.zero.lt (exp2 id x) = true) ∧
      (∀ x y : F, (i2f (-1022)).le x = true → y.le (i2f 1023) = true → x.le y = true →
        (exp2 id x).le (exp2 id y) = true)

/-! ### Encoding (30_encoding.md) -/

/-- R90: OP in bits 31..24, RSV in bits 23..16, KEY in bits 15..0 of the word. -/
def Obligations.CommandWordHasItsFields : Prop :=
  ∀ (op rsv : BitVec 8) (key : Key),
    (cmdWord op rsv key).toNat = op.toNat * 2 ^ 24 + rsv.toNat * 2 ^ 16 + key.toNat

/-- R94, R91, R92: every word decodes to exactly one command, by OP, with KEY as a two's complement operand. -/
def Obligations.DecodingReadsOpAndKey : Prop :=
  ∀ w : Word,
    let op : Nat := w.toNat / 2 ^ 24
    let field : Nat := w.toNat % 2 ^ 16
    let k : Int := if field < 2 ^ 15 then (field : Int) else (field : Int) - 2 ^ 16
    (op = 0 → decode w = .nop) ∧
      (op = 1 → ∃ key, decode w = .noteOn key ∧ keyInt key = k) ∧
      (op = 2 → ∃ key, decode w = .noteOff key ∧ keyInt key = k) ∧
      (3 ≤ op → ∃ u, decode w = .unknown u ∧ u.toNat = op)

/-- R93: a word whose RSV is nonzero executes exactly as the same word with RSV = 0. -/
def Obligations.ReservedFieldIsIgnored : Prop :=
  ∀ (op rsv : BitVec 8) (key : Key) (s : State),
    exec (decode (cmdWord op rsv key)) s = exec (decode (cmdWord op 0 key)) s

/-- R90 to R94: decoding an encoded well-formed command gives it back, with every operand. -/
def Obligations.DecodeOfEncodeIsTheCommand : Prop :=
  ∀ i : Instr, i.wf = true → decode (encode i) = i

/-- 30_encoding.md section 3: its 14 encoded examples, in the order of its table; then the decoding vectors DC2, DC5, DC8 and DC10. -/
def Obligations.EncodedExamplesDecode : Prop :=
  (decode 0x00000000 = .nop ∧ decode 0x01000045 = .noteOn 69 ∧ decode 0x01000051 = .noteOn 81 ∧ decode 0x0100003C = .noteOn 60 ∧
      decode 0x01000040 = .noteOn 64 ∧ decode 0x01000000 = .noteOn 0 ∧ decode 0x0100007F = .noteOn 127 ∧
      decode 0x0100FFF4 = .noteOn (-12) ∧ decode 0x0100008C = .noteOn 140 ∧ decode 0x0200003C = .noteOff 60 ∧
      decode 0x0200003D = .noteOff 61 ∧ decode 0x02000045 = .noteOff 69 ∧ decode 0x01AB0045 = .noteOn 69 ∧
      decode 0x7F000045 = .unknown 0x7F) ∧
    decode 0x00FF1234 = .nop ∧ decode 0x01008000 = .noteOn (-32768) ∧ decode 0x0255003C = .noteOff 60 ∧
    decode 0xFFFFFFFF = .unknown 0xFF

/-- R99: the lines of command syntax and their words: `NOP`, `NOTEON <key>` and `NOTEOFF <key>` for a key in −32768..32767, `.word <hex32>`;
any other operand is refused. -/
def Obligations.AssemblerGivesEachLineItsWord : Prop :=
  assemble .nop = some 0x00000000 ∧
    (∀ k : Int, -32768 ≤ k → k ≤ 32767 →
      ∃ f : Key, f.toInt = k ∧ assemble (.noteon k) = some (cmdWord 1 0 f) ∧ assemble (.noteoff k) = some (cmdWord 2 0 f)) ∧
    (∀ k : Int, k < -32768 ∨ 32767 < k → assemble (.noteon k) = none ∧ assemble (.noteoff k) = none) ∧
    (∀ w : Word, assemble (.word w.toNat) = some w) ∧ (∀ n : Nat, 2 ^ 32 ≤ n → assemble (.word n) = none)

/-! ### Voice control (44_voice_control.md) -/

/-- R181, R182: NOTE_ON of a key in range completes: it sets KEY, PINC = PITCH(k) as R180 computes it, and every gate, and changes nothing else.
Of a key outside the range it sets REFUSED and changes nothing else. -/
def Obligations.NoteOnStartsTheNoteOrMarksRefused : Prop :=
  ∀ (s : State) (k : Key),
    (s.cfg.keyMin ≤ keyInt k → keyInt k ≤ s.cfg.keyMax →
      exec (.noteOn k) s = .next
        { s with
          key := k
          pinc := fdiv (fmul (i2f 440) (exp2 s.cfg.exp2 (fdiv (i2f (keyInt k - 69)) (i2f 12)))) s.cfg.sr
          op := ⟨{ s.op.x0 with env := F.one }, { s.op.x1 with env := F.one },
            { s.op.x2 with env := F.one }, { s.op.x3 with env := F.one }⟩ }) ∧
      (keyInt k < s.cfg.keyMin ∨ s.cfg.keyMax < keyInt k → exec (.noteOn k) s = .next { s with refused := true })

/-- R183: NOTE_OFF of the current key completes: it closes every gate and changes nothing else, KEY and PINC among it.
Of any other key it is ignored. -/
def Obligations.NoteOffStopsTheCurrentNoteOnly : Prop :=
  ∀ (s : State) (k : Key),
    (k = s.key → exec (.noteOff k) s = .next
        { s with
          op := ⟨{ s.op.x0 with env := F.zero }, { s.op.x1 with env := F.zero },
            { s.op.x2 with env := F.zero }, { s.op.x3 with env := F.zero }⟩ }) ∧
      (k ≠ s.key → exec (.noteOff k) s = .next s)

/-- R184: a word with OP 0x00 or 0x03..0xFF changes no state and emits nothing, whatever its other fields. -/
def Obligations.NopAndUnknownWordsChangeNothing : Prop :=
  (∀ s : State, exec .nop s = .next s) ∧ (∀ (s : State) (op : BitVec 8), exec (.unknown op) s = .next s) ∧
    ∀ (s : State) (op rsv : BitVec 8) (key : Key), op ≠ 1 → op ≠ 2 → exec (decode (cmdWord op rsv key)) s = .next s

/-- R119, R187, R115 and R48, the frame of NOP, NOTE_ON, NOTE_OFF and UNKNOWN: phases, outputs, flags, the queue, the configuration,
the outputs of the block and the host's script are as before; KEY and PINC change only in a NOTE_ON, REFUSED only in a NOTE_ON. -/
def Obligations.CommandsKeepPhasesOutputsAndFlags : Prop :=
  ∀ (i : Instr) (s t : State), exec i s = .next t →
    (∀ j, (t.op.get j).phase = (s.op.get j).phase ∧ (t.op.get j).out = (s.op.get j).out ∧ (t.op.get j).diag = (s.op.get j).diag) ∧
      t.mixdiag = s.mixdiag ∧ t.cq = s.cq ∧ t.cfg = s.cfg ∧ t.diags = s.diags ∧ t.samples = s.samples ∧ t.bufs = s.bufs ∧
      t.keepAlive = s.keepAlive ∧ t.host = s.host ∧
      ((∀ k, i ≠ .noteOn k) → t.key = s.key ∧ t.pinc = s.pinc ∧ t.refused = s.refused)

/-- R185: the note state machine, one row per applied command, from a state whose gates agree (R33). -/
def Obligations.NoteStateMachineTransitions : Prop :=
  ∀ s : State, gatesAgree s →
    (sounding s = !idle s) ∧
      (∀ k t, inKeyRange s.cfg k = true → exec (.noteOn k) s = .next t → sounding t = true ∧ t.key = k ∧ t.pinc = pitch s.cfg (keyInt k)) ∧
      (∀ k t, inKeyRange s.cfg k = false → exec (.noteOn k) s = .next t →
        sounding t = sounding s ∧ t.refused = true ∧ t.key = s.key ∧ t.pinc = s.pinc) ∧
      (∀ k t, k = s.key → exec (.noteOff k) s = .next t → idle t = true ∧ t.key = s.key ∧ t.pinc = s.pinc) ∧
      (∀ k t, k ≠ s.key → exec (.noteOff k) s = .next t → sounding t = sounding s ∧ t.key = s.key ∧ t.pinc = s.pinc) ∧
      (∀ op t, exec .nop s = .next t ∨ exec (.unknown op) s = .next t → sounding t = sounding s ∧ t.key = s.key ∧ t.pinc = s.pinc)

/-- R186: the last NOTE_ON applied decides KEY, and a NOTE_OFF of the earlier key is stale. -/
def Obligations.LastNoteHasPriority : Prop :=
  ∀ (s : State) (k1 k2 : Key), inKeyRange s.cfg k1 = true → inKeyRange s.cfg k2 = true → k1 ≠ k2 →
    s.cq = [encode (.noteOn k1), encode (.noteOn k2), encode (.noteOff k1)] →
      ∃ t, drain s = .next t ∧ t.key = k2 ∧ sounding t = true ∧ t.pinc = pitch s.cfg (keyInt k2) ∧ t.refused = s.refused

/-- R188 item 1: PITCH(69) = fdiv(440.0, SR), for every admissible EXP2. -/
def Obligations.PitchOfA4IsReferenceOverRate : Prop :=
  ∀ c : Cfg, pitch c 69 = fdiv (i2f 440) c.sr

/-- R188 item 2: the octaves above A4 are exact, as long as the product with 440 does not overflow (n ≤ 1015). -/
def Obligations.OctavesAboveA4AreExact : Prop :=
  ∀ (c : Cfg) (n : Nat), c.sr.finite = true → F.zero.lt c.sr = true → n ≤ 1015 →
    pitch c (69 + 12 * n) = fmul (pow2 n) (pitch c 69)

/-- R188 item 4: PITCH is monotone in the key, on the keys whose octave number R16 covers (log 17). -/
def Obligations.PitchIsMonotone : Prop :=
  ∀ (c : Cfg) (k k' : Int), c.sr.finite = true → F.zero.lt c.sr = true → -12195 ≤ k → k ≤ k' → k' ≤ 12345 →
    (pitch c k).le (pitch c k') = true

/-- R180: on the key range of a well-formed configuration PITCH is finite and positive, on the keys whose octave number R16 covers (log 17). -/
def Obligations.PitchIsFiniteAndPositive : Prop :=
  ∀ (c : Cfg) (k : Int), wfCfg c = true → keysInExp2Range c → c.keyMin ≤ k → k ≤ c.keyMax →
    (pitch c k).finite = true ∧ F.zero.lt (pitch c k) = true ∧
      ∀ i, (fmul (c.ratio.get i) (pitch c k)).finite = true ∧ F.zero.le (fmul (c.ratio.get i) (pitch c k)) = true

/-! ### Operators (41_operator.md) -/

/-- R110 to R113, R115, R243: ADVANCE(i, m) as a whole: the guarded output, the flag, the record, the phase, and nothing else. -/
def Obligations.AdvanceComputesOutputGuardAndPhase : Prop :=
  ∀ (s : State) (i : Fin 4) (m : F),
    let r := s.op.get i
    let o := fmul (fmul (s.cfg.amp.get i) r.env) (sinturn s.cfg.sinturn (fadd r.phase (fmul (i2f 4) m)))
    let t := fadd r.phase (fmul (s.cfg.ratio.get i) s.pinc)
    (o.finite = true → advance i m s =
        { s with op := s.op.set i { phase := fsub t (ffloor t), env := r.env, out := o, diag := r.diag } }) ∧
      (o.finite = false → r.diag = true → advance i m s =
        { s with op := s.op.set i { phase := fsub t (ffloor t), env := r.env, out := F.zero, diag := true } }) ∧
      (o.finite = false → r.diag = false → advance i m s =
        { s with
          op := s.op.set i { phase := fsub t (ffloor t), env := r.env, out := F.zero, diag := true }
          diags := s.diags ++ [.opnf i r.phase (s.cfg.amp.get i) r.env s.pinc] })

/-- R117, R118, R119: START and STOP write the gate of their operator and nothing else. -/
def Obligations.StartAndStopWriteOnlyTheGate : Prop :=
  ∀ (s : State) (i : Fin 4),
    start i s = { s with op := s.op.set i { s.op.get i with env := F.one } } ∧
      stop i s = { s with op := s.op.set i { s.op.get i with env := F.zero } }

/-- R114: the wrapped phase lies in [0, 1), never −0 and never NaN, for every phase in [0, 1), every finite increment that is not negative,
and every modulation input. -/
def Obligations.AdvanceKeepsPhaseInUnitInterval : Prop :=
  ∀ (s : State) (i : Fin 4) (m : F), inUnit (s.op.get i).phase →
    (fmul (s.cfg.ratio.get i) s.pinc).finite = true → F.zero.le (fmul (s.cfg.ratio.get i) s.pinc) = true →
      inUnit ((advance i m s).op.get i).phase

/-- R116 item 6: with a finite amplitude and a gate of 0.0 or 1.0 the guard fires exactly when the sine is NaN.
R116 items 3 and 6: for a phase in [0, 1) the sine's argument is non-finite exactly when `fmul(4.0, m)` is, which a non-finite `m` makes it,
and the guard then fires, whatever the amplitude and the gate: the output is `+0` and `DIAG[i]` is set. -/
def Obligations.GuardFiresExactlyOnNanSine : Prop :=
  ∀ (s : State) (i : Fin 4) (m : F),
    ((s.cfg.amp.get i).finite = true → ((s.op.get i).env = F.zero ∨ (s.op.get i).env = F.one) →
      ((rawOutput i m s).finite = false ↔ sinturn s.cfg.sinturn (sineArg i m s) = .nan)) ∧
      (m.finite = false → (fmul (i2f 4) m).finite = false) ∧
      (inUnit (s.op.get i).phase →
        ((sineArg i m s).finite = false ↔ (fmul (i2f 4) m).finite = false) ∧
          ((fmul (i2f 4) m).finite = false → (rawOutput i m s).finite = false ∧
            ((advance i m s).op.get i).out = F.zero ∧ ((advance i m s).op.get i).diag = true))

/-- R116 item 5: `|OUT[i]| <= |AMP[i]|` after ADVANCE. -/
def Obligations.OutputIsBoundedByAmplitude : Prop :=
  ∀ (s : State) (i : Fin 4) (m : F), (s.cfg.amp.get i).finite = true →
    ((s.op.get i).env = F.zero ∨ (s.op.get i).env = F.one) →
      ((advance i m s).op.get i).out.abs.le (s.cfg.amp.get i).abs = true

/-- R116 items 1 and 2: with the gate closed the output is a zero, whether the guard fires or not. -/
def Obligations.ClosedGateOutputsZero : Prop :=
  ∀ (s : State) (i : Fin 4) (m : F), (s.cfg.amp.get i).finite = true → (s.op.get i).env = F.zero →
    ((advance i m s).op.get i).out.isZero = true

/-! ### Routing and mixer (42_routing.md, 43_mixer.md) -/

/-- R140: MODIN(i) is the ascending sum over all four outputs from `+0`. -/
def Obligations.ModinIsTheAscendingSum : Prop :=
  ∀ (s : State) (i : Fin 4),
    modin i s =
      fadd (fadd (fadd (fadd F.zero (fmul (s.cfg.w.get i).x0 s.op.x0.out)) (fmul (s.cfg.w.get i).x1 s.op.x1.out))
        (fmul (s.cfg.w.get i).x2 s.op.x2.out)) (fmul (s.cfg.w.get i).x3 s.op.x3.out)

/-- R142, the consequence: with a strictly lower-triangular matrix and finite outputs, MODIN(i) is the ascending sum over `j < i` alone. -/
def Obligations.ModinReadsOnlyEarlierOperators : Prop :=
  ∀ s : State, wfRouting s.cfg = true → outputsFinite s →
    modin 0 s = F.zero ∧
      modin 1 s = fadd F.zero (fmul s.cfg.w.x1.x0 s.op.x0.out) ∧
      modin 2 s = fadd (fadd F.zero (fmul s.cfg.w.x2.x0 s.op.x0.out)) (fmul s.cfg.w.x2.x1 s.op.x1.out) ∧
      modin 3 s = fadd (fadd (fadd F.zero (fmul s.cfg.w.x3.x0 s.op.x0.out)) (fmul s.cfg.w.x3.x1 s.op.x1.out))
        (fmul s.cfg.w.x3.x2 s.op.x2.out)

/-- R160, R161, R243: MIXSUM as a whole: the guarded sample, the flag, the record, and nothing else. -/
def Obligations.MixsumScalesTheSumAndGuards : Prop :=
  ∀ s : State,
    let acc := fadd (fadd (fadd (fadd F.zero (fmul s.cfg.mix.x0 s.op.x0.out)) (fmul s.cfg.mix.x1 s.op.x1.out))
      (fmul s.cfg.mix.x2 s.op.x2.out)) (fmul s.cfg.mix.x3 s.op.x3.out)
    let y := fmul s.cfg.scale acc
    (y.finite = true → mixSample s = y ∧ mixsum s = s) ∧
      (y.finite = false → s.mixdiag = true → mixSample s = F.zero ∧ mixsum s = s) ∧
      (y.finite = false → s.mixdiag = false →
        mixSample s = F.zero ∧ mixsum s = { s with mixdiag := true, diags := s.diags ++ [.mixnf y] })

/-! ### Render loop (45_render_loop.md) -/

/-- R210, R143, R219: a tick is MODIN and ADVANCE of operators 0, 1, 2, 3, then MIXSUM, then the output writes of sample `k`. -/
def Obligations.TickFollowsTheSchedule : Prop :=
  ∀ (s : State) (k : Nat),
    let s0 := advance 0 (modin 0 s) s
    let s1 := advance 1 (modin 1 s0) s0
    let s2 := advance 2 (modin 2 s1) s1
    let s3 := advance 3 (modin 3 s2) s2
    let y := mixSample s3
    tick s k = { mixsum s3 with
      samples := s3.samples ++ [y]
      bufs := s3.bufs.map fun bus => bus.map fun channel => channel.set k (outConv s.cfg.outConv y) }

/-- R212: DRAIN always completes; it applies every queued word, oldest first, and leaves CQ empty. -/
def Obligations.DrainAppliesEveryWordInOrder : Prop :=
  ∀ s : State, drain s = .next { s.cq.foldl applyWord s with cq := [] }

/-- R187, R282, R115: the ticks of a block change no key, increment, gate, mark, configuration, queue or script. -/
def Obligations.TicksChangeNoVoiceState : Prop :=
  ∀ s : State, (render s).key = s.key ∧ (render s).pinc = s.pinc ∧ (∀ i, ((render s).op.get i).env = (s.op.get i).env) ∧
    (render s).refused = s.refused ∧ (render s).cfg = s.cfg ∧ (render s).cq = s.cq ∧ (render s).host = s.host

/-- R113: every phase advances once per sample, whatever the gate, the modulation and the guard did. -/
def Obligations.PhaseRunsOnEverySample : Prop :=
  ∀ (s : State) (i : Fin 4), ((render s).op.get i).phase = (phaseStep s i)^[s.cfg.blockLen] (s.op.get i).phase

/-- R211, R214, R84: BLOCK always completes: DRAIN, then the ticks `k` in 0..BLOCK_LEN−1, then KEEP_ALIVE = true; and so CQ is left empty and
BLOCK_LEN samples are rendered. -/
def Obligations.BlockDrainsThenRunsItsTicks : Prop :=
  ∀ s : State, ∃ t, block s = .next t ∧
    t = { (List.range s.cfg.blockLen).foldl tick { s.cq.foldl applyWord s with cq := [], samples := [] } with
      keepAlive := some true } ∧
    t.cq = [] ∧ t.samples.length = s.cfg.blockLen

/-- R210, R211, R218: sample `k` of a block is the mix after the operators of tick `k`, the ticks running in order after DRAIN. -/
def Obligations.BlockSamplesAreItsTicks : Prop :=
  ∀ s u t : State, drain s = .next u → block s = .next t → ∀ k, k < s.cfg.blockLen →
    t.samples[k]? = some (mixSample (runOperators ((List.range k).foldl tick { u with samples := [] })))

/-- R213: after BLOCK every channel of every bus holds OUT_CONV of the block's samples, whatever the buffers held before. -/
def Obligations.BlockBroadcastsItsSamples : Prop :=
  ∀ s t : State, bufsShaped s → block s = .next t →
    t.bufs = s.cfg.nch.map fun n => List.replicate n (t.samples.map (outConv s.cfg.outConv))

/-- R211, R163 item 2, the source's scenario: an Idle voice with no command queued renders BLOCK_LEN samples of `+0`,
when the sign bit of SCALE is clear, under every admissible sine. -/
def Obligations.IdleVoiceRendersSilence : Prop :=
  ∀ s : State, wfCfg s.cfg = true → (∀ i, (s.op.get i).env = F.zero) → s.cq = [] → s.cfg.scale.sign = false →
    ∃ t, block s = .next t ∧ t.samples = List.replicate s.cfg.blockLen F.zero

/-- R72, R242: no output is ever read: from two states that differ at most in the outputs, BLOCK leads to states that differ at most in them,
renders the same samples, and emits the same records. -/
def Obligations.OutputsAreNeverRead : Prop :=
  ∀ s s' t t' : State, sameButOutputs s s' → block s = .next t → block s' = .next t' →
    sameButOutputs t t' ∧ t.samples = t'.samples ∧
      ∃ new, t.diags = s.diags ++ new ∧ t'.diags = s'.diags ++ new

/-! ### The step, the queue, reset (45, 70) -/

/-- R217, R18: a PUSH on a full queue is held; the next BLOCK of the script goes ahead, and then the PUSH completes (vector RL3).
The script is the model's way to hold the agents' steps (log 7). -/
def Obligations.HeldPushCompletesAfterTheNextBlock : Prop :=
  ∀ (s : State) (w : Word) (rest : List HostEvent), s.host = .push w :: .block :: rest → s.cq.length = s.cfg.qdepth →
    1 ≤ s.cfg.qdepth →
      ∃ t u, step s = .next t ∧ block { s with host := .push w :: rest } = .next t ∧ step t = .next u ∧ u.cq = [w] ∧ u.host = rest

/-- R212, R211: a step that takes a BLOCK with one word queued is exec of the decoded command, with CQ emptied, and then the ticks.
The script in `host` is the model's own (log 7). -/
def Obligations.BlockStepRunsTheDecodedCommand : Prop :=
  ∀ (s : State) (w : Word) (rest : List HostEvent), s.host = .block :: rest → s.cq = [w] →
    step s = match exec (decode w) { s with cq := [], host := rest } with
      | .next t => .next (render t)
      | .fault r => .fault r
      | .refused r => .refused r

/-- R276, R275, R79 (the script in `host` is the model's own, log 7): a command pushed into an empty queue changes no voice or operator state until the next BLOCK, which applies it before sample 0. -/
def Obligations.PushedCommandActsAtTheNextBlock : Prop :=
  ∀ (s : State) (i : Instr) (rest : List HostEvent), i.wf = true → s.cq = [] → 1 ≤ s.cfg.qdepth →
    s.host = .push (encode i) :: .block :: rest →
      ∃ t u, step s = .next t ∧ t.key = s.key ∧ t.pinc = s.pinc ∧ t.op = s.op ∧ t.mixdiag = s.mixdiag ∧
        exec i { s with cq := [], host := rest } = .next u ∧ step t = .next (render u)

/-- R270: RESET of a well-formed configuration latches it and gives the state R270 lists; an ill-formed one is refused. -/
def Obligations.ResetConstructsAFreshVoice : Prop :=
  ∀ (s : State) (c : Cfg),
    (wfCfg c = false → resetVoice c s = .refused .badConfig) ∧
      (wfCfg c = true → ∃ t, resetVoice c s = .next t ∧ t.cfg = c ∧ t.key = 69 ∧ t.pinc = pitch c 69 ∧
        (∀ i, t.op.get i = { phase := F.zero, env := F.zero, out := F.zero, diag := false }) ∧
        t.mixdiag = false ∧ t.cq = [] ∧ t.refused = false)

/-- R272: nothing of the old voice survives a RESET.
That the outputs held in State (the stream, the samples, KEEP_ALIVE) and the host's buffers do not outlive it either is the model's choice
(log 12, and log 13, a DESIGN CHOICE); R272 speaks of the voice only. The host's remaining script, which is kept, is the model's own (log 7). -/
def Obligations.ResetForgetsTheOldVoice : Prop :=
  ∀ (c : Cfg) (s s' : State), s.host = s'.host → resetVoice c s = resetVoice c s'

/-- R19, R100: one step takes the host's first event: RESET, PUSH with room, or BLOCK, and with no event nothing changes (R273).
The script in `host` is the model's own (DESIGN CHOICE, log 7, 8). -/
def Obligations.StepTakesTheHostsFirstEvent : Prop :=
  ∀ (s : State) (rest : List HostEvent),
    (s.host = [] → step s = .next s) ∧
      (∀ c, s.host = .reset c :: rest → step s = resetVoice c { s with host := rest }) ∧
      (s.host = .block :: rest → step s = block { s with host := rest }) ∧
      (∀ w, s.host = .push w :: rest → s.cq.length < s.cfg.qdepth →
        step s = .next { s with cq := s.cq ++ [w], host := rest })

/-- R49: a configuration is well-formed exactly when it passes every check, so failing any one of them makes it ill-formed; a nonzero weight
on or above the diagonal (R142, R279) is one of them.
That the properties of SINTURN and EXP2 are two flags of the configuration, and that NBUS is the length of NCH, is the model's choice
(log 3, 4, 14). -/
def Obligations.WellFormedExactlyWhenEveryCheckPasses : Prop :=
  ∀ c : Cfg, wfCfg c = true ↔
    (c.sr.finite = true ∧ F.zero.lt c.sr = true) ∧
      (∀ i j, ((c.w.get i).get j).finite = true ∧ (i ≤ j → ((c.w.get i).get j).eq F.zero = true)) ∧
      (∀ i, (c.mix.get i).finite = true ∧ (c.amp.get i).finite = true ∧ (c.ratio.get i).finite = true ∧ F.zero.le (c.ratio.get i) = true) ∧
      c.scale.finite = true ∧
      (c.keyMin ≤ 69 ∧ 69 ≤ c.keyMax ∧ -32768 ≤ c.keyMin ∧ c.keyMax ≤ 32767) ∧
      (F.zero.lt (pitch c c.keyMin) = true ∧ (pitch c c.keyMax).finite = true ∧
        ∀ i, (fmul (c.ratio.get i) (pitch c c.keyMax)).finite = true) ∧
      (1 ≤ c.qdepth ∧ 1 ≤ c.blockLen ∧ 1 ≤ c.nch.length ∧ ∀ n ∈ c.nch, 1 ≤ n) ∧
      c.sinturnOk = true ∧ c.exp2Ok = true

/-- R18: no step faults, and a step is refused only for a RESET of an ill-formed configuration.
That a NOTE_ON out of range leaves a mark and is no outcome of its own, and the script that offers the RESET, are the model's readings (log 10, 7). -/
def Obligations.OnlyIllFormedResetsAreRefused : Prop :=
  ∀ s : State, (∀ r, step s ≠ .fault r) ∧
    ∀ r, step s = .refused r → r = .badConfig ∧
      ∃ c rest, nextEvent (pushEnabled s) s.host = some (.reset c, rest) ∧ wfCfg c = false

/-! ### Invariants of every step -/

/-- R48: no step but a RESET writes any item of the configuration. What the next event is, the model's script says (log 7). -/
def Obligations.ConfigurationIsFixedBetweenResets : Prop :=
  ∀ s t : State, nextIsReset s = false → step s = .next t → t.cfg = s.cfg

/-- R38, R39, R51, R242: no step but a RESET clears a sticky flag or the refusal mark, or takes a record from the stream.
That a RESET clears the mark and empties the stream is the model's reading (DEDUCED, log 10, 12), and the script is its own (log 7). -/
def Obligations.FlagsAreStickyBetweenResets : Prop :=
  ∀ s t : State, nextIsReset s = false → step s = .next t →
    (∀ i, (s.op.get i).diag = true → (t.op.get i).diag = true) ∧ (s.mixdiag = true → t.mixdiag = true) ∧
      (s.refused = true → t.refused = true) ∧ s.diags <+: t.diags

/-- R31, R32, R33, R36, R49 (steps as the model's script offers them, log 7): every step keeps KEY in range, PINC = PITCH(KEY), equal gates of 0.0 or 1.0, and a well-formed configuration. -/
def Obligations.StepKeepsVoiceState : Prop :=
  ∀ s t : State, voiceOk s → step s = .next t → voiceOk t

/-- R35, R114 (steps as the model's script offers them, log 7): every step keeps every phase in [0, 1), where EXP2 is known on the whole key range (log 17). -/
def Obligations.StepKeepsPhasesInUnitInterval : Prop :=
  ∀ s t : State, phaseOk s → step s = .next t → phaseOk t

/-- R37, R163 item 1 (steps as the model's script offers them, log 7): every step keeps every operator output and every rendered sample finite. -/
def Obligations.StepKeepsOutputsFinite : Prop :=
  ∀ s t : State, outputsFinite s ∧ samplesFinite s → step s = .next t → outputsFinite t ∧ samplesFinite t

/-- R50, R278 (steps as the model's script offers them, log 7): every step keeps CQ within QDEPTH. -/
def Obligations.StepKeepsQueueBounded : Prop :=
  ∀ s t : State, queueBounded s → step s = .next t → queueBounded t

/-- R243, R242: every step keeps one record for each set flag and no other; so the stream never holds more than five records.
The stream is counted since the last RESET, which empties it (DEDUCED, log 12); the script is the model's own (log 7). -/
def Obligations.StepKeepsOneRecordPerFlag : Prop :=
  (∀ s t : State, streamMatchesFlags s → step s = .next t → streamMatchesFlags t) ∧
    ∀ s : State, streamMatchesFlags s → s.diags.length ≤ 5

/-- R71, R280: every step keeps the buffers in the configured shape. Buffers that persist between blocks are a DESIGN CHOICE (log 13), and the script is the model's own (log 7). -/
def Obligations.StepKeepsBufferShape : Prop :=
  ∀ s t : State, bufsShaped s → step s = .next t → bufsShaped t

/-- R270, with the configuration the model chose for `State.reset` (a DESIGN CHOICE, log 6): it is well-formed, `State.reset` is its RESET,
and it meets every invariant; its outputs and its script are the model's choice too (log 7, 12, 13). -/
def Obligations.ResetStateMeetsTheInvariants : Prop :=
  wfCfg refCfg = true ∧ State.reset = construct refCfg [] ∧ phaseOk State.reset ∧ outputsFinite State.reset ∧
    samplesFinite State.reset ∧ queueBounded State.reset ∧ streamMatchesFlags State.reset ∧ bufsShaped State.reset
end

