-- ==== Sys2Proof/Laws/Rounding.lean ====
section
/-! SUPPORT. What rounding does: the pattern it returns lies nearest to the exact value, ties going to the even pattern; so it is
exact on representable values and monotone. -/

namespace Sys2Proof

/-- The magnitude of the pattern with spacing exponent `e` and significand `m`. -/
theorem magUnits_pattern {e m : Nat} (hm : m ≤ 2 ^ 53) (h : e = 0 ∨ 2 ^ 52 ≤ m) :
    magUnits (e * fracMod + m) = m * 2 ^ e := by
  have hf : fracMod = 2 ^ 52 := rfl
  rw [hf]
  unfold magUnits
  rw [hf]
  rcases Nat.lt_or_ge m (2 ^ 52) with hlt | hge
  · have he : e = 0 := by omega
    subst he
    rw [if_pos (by omega)]
    simp
  rcases Nat.lt_or_ge m (2 ^ 53) with hlt | hge'
  · have hd : (e * 2 ^ 52 + m) / 2 ^ 52 = e + 1 := by omega
    have hr : (e * 2 ^ 52 + m) % 2 ^ 52 = m - 2 ^ 52 := by omega
    rw [hd, hr, if_neg (by omega), Nat.add_sub_cancel, show 2 ^ 52 + (m - 2 ^ 52) = m by omega]
  · have hm' : m = 2 ^ 53 := by omega
    have hd : (e * 2 ^ 52 + m) / 2 ^ 52 = e + 2 := by omega
    have hr : (e * 2 ^ 52 + m) % 2 ^ 52 = 0 := by omega
    have hp : 2 ^ (e + 2 - 1) = 2 ^ e * 2 := pow_succ 2 e
    rw [hd, hr, if_neg (by omega), hp, show m = 2 ^ 52 * 2 by omega, Nat.add_zero, Nat.mul_assoc, Nat.mul_comm 2]

/-- Every pattern has a spacing exponent and a significand. -/
theorem pattern_split (p : Nat) :
    ∃ e m, p = e * fracMod + m ∧ m < 2 ^ 53 ∧ (e = 0 ∨ 2 ^ 52 ≤ m) ∧ magUnits p = m * 2 ^ e := by
  have hf : fracMod = 2 ^ 52 := rfl
  rcases Nat.lt_or_ge p (2 ^ 53) with h | h
  · refine ⟨0, p, by omega, h, .inl rfl, ?_⟩
    have := magUnits_pattern (e := 0) (m := p) (by omega) (.inl rfl)
    simpa using this
  · refine ⟨p / 2 ^ 52 - 1, p % 2 ^ 52 + 2 ^ 52, by rw [hf]; omega, by omega, .inr (by omega), ?_⟩
    have := magUnits_pattern (e := p / 2 ^ 52 - 1) (m := p % 2 ^ 52 + 2 ^ 52) (by omega) (.inr (by omega))
    rwa [show (p / 2 ^ 52 - 1) * fracMod + (p % 2 ^ 52 + 2 ^ 52) = p by rw [hf]; omega] at this

/-- The next pattern is at least one spacing further out. -/
theorem magUnits_next (e m : Nat) (hm : m ≤ 2 ^ 53) (h : e = 0 ∨ 2 ^ 52 ≤ m) :
    (m + 1) * 2 ^ e ≤ magUnits (e * fracMod + m + 1) := by
  rcases Nat.lt_or_ge m (2 ^ 53) with hlt | hge
  · rw [Nat.add_assoc, magUnits_pattern (by omega) (by omega)]
  · obtain rfl : m = 2 ^ 53 := by omega
    have : e * fracMod + 2 ^ 53 + 1 = (e + 1) * fracMod + (2 ^ 52 + 1) := by
      have hf : fracMod = 2 ^ 52 := rfl
      rw [hf]
      omega
    have hp : 2 ^ (e + 1) = 2 ^ e * 2 := pow_succ 2 e
    rw [this, magUnits_pattern (by omega) (.inr (by omega)), hp, Nat.mul_comm (2 ^ e) 2, ← Nat.mul_assoc]
    exact Nat.mul_le_mul_right _ (by omega)

/-- A larger pattern is a strictly larger magnitude. -/
theorem magUnits_strictMono : StrictMono magUnits := by
  refine strictMono_nat_of_lt_succ fun p => ?_
  obtain ⟨e, m, rfl, hm, h, hu⟩ := pattern_split p
  rw [hu]
  refine lt_of_lt_of_le ?_ (magUnits_next e m hm.le h)
  exact Nat.mul_lt_mul_of_pos_right (Nat.lt_succ_self m) (Nat.two_pow_pos e)

@[simp] theorem magUnits_zero : magUnits 0 = 0 := by decide

theorem magUnits_eq_zero {p : Nat} : magUnits p = 0 ↔ p = 0 := by
  rw [← magUnits_zero]
  exact magUnits_strictMono.injective.eq_iff

theorem magUnits_le_iff {p q : Nat} : magUnits p ≤ magUnits q ↔ p ≤ q := magUnits_strictMono.le_iff_le

theorem magUnits_lt_iff {p q : Nat} : magUnits p < magUnits q ↔ p < q := magUnits_strictMono.lt_iff_lt

/-- The nearest natural number, ties to even: within half of the fraction, and even on a tie. -/
theorem nearestEven_spec {n d : Nat} (hd : 0 < d) :
    let m := nearestEven n d
    2 * n ≤ (2 * m + 1) * d ∧ 2 * m * d ≤ 2 * n + d ∧
      (2 * n = (2 * m + 1) * d → m % 2 = 0) ∧ (2 * m * d = 2 * n + d → m % 2 = 0) ∧
      (m = n / d ∨ m = n / d + 1) ∧ (m * d > n → m = n / d + 1) := by
  have hn := Nat.div_add_mod n d
  have hr := Nat.mod_lt n hd
  simp only [nearestEven]
  generalize n / d = a at *
  generalize n % d = r at *
  subst hn
  have e1 : (2 * a + 1) * d = 2 * (d * a) + d := by ring
  have e2 : 2 * a * d = 2 * (d * a) := by ring
  have e3 : (2 * (a + 1) + 1) * d = 2 * (d * a) + 3 * d := by ring
  have e4 : 2 * (a + 1) * d = 2 * (d * a) + 2 * d := by ring
  have e5 : a * d = d * a := by ring
  split
  · refine ⟨by omega, by omega, fun _ => by omega, fun _ => by omega, by omega, fun _ => by omega⟩
  · split
    · refine ⟨by omega, by omega, fun _ => by omega, fun _ => by omega, by omega, fun _ => rfl⟩
    · generalize hm : a + a % 2 = m
      rcases Nat.mod_two_eq_zero_or_one a with h | h
      · obtain rfl : m = a := by omega
        refine ⟨by omega, by omega, fun _ => by omega, fun _ => by omega, by omega, fun _ => by omega⟩
      · obtain rfl : m = a + 1 := by omega
        refine ⟨by omega, by omega, fun _ => by omega, fun _ => by omega, by omega, fun _ => rfl⟩

/-- The spacing exponent leaves 53 significant bits. -/
theorem spacing_spec (q : Nat) :
    q / 2 ^ spacing q < 2 ^ 53 ∧ (spacing q = 0 ∨ 2 ^ 52 ≤ q / 2 ^ spacing q) := by
  unfold spacing
  split
  · rename_i h
    simpa using h
  · rename_i h
    have hq : q ≠ 0 := by omega
    have h1 := Nat.log2_self_le hq
    have h2 := @Nat.lt_log2_self q
    have h3 : 53 ≤ q.log2 := (Nat.le_log2 hq).2 (by omega)
    have hs : 2 ^ q.log2 = 2 ^ 52 * 2 ^ (q.log2 - 52) := by rw [← Nat.pow_add]; congr 1; omega
    constructor
    · rw [Nat.div_lt_iff_lt_mul (Nat.two_pow_pos _)]
      rw [pow_succ, hs] at h2
      omega
    · right
      rw [Nat.le_div_iff_mul_le (Nat.two_pow_pos _)]
      omega

/-- What `roundMag` returns: the exact value `n / d` lies between the midpoints to the neighbouring patterns, and on a midpoint only
if the returned pattern is even.
This is rounding to nearest, ties to even (R13). -/
theorem roundMag_between {n d : Nat} (hd : 0 < d) :
    let p := roundMag n d
    2 * n ≤ (magUnits p + magUnits (p + 1)) * d ∧
      (2 * n = (magUnits p + magUnits (p + 1)) * d → p % 2 = 0) ∧
      (∀ k, k < p → (magUnits k + magUnits (k + 1)) * d ≤ 2 * n ∧
        ((magUnits k + magUnits (k + 1)) * d = 2 * n → k + 1 = p → p % 2 = 0)) := by
  obtain ⟨hs1, hs2⟩ := spacing_spec (n / d)
  have hdiv : n / d / 2 ^ spacing (n / d) = n / (d * 2 ^ spacing (n / d)) := Nat.div_div_eq_div_mul _ _ _
  rw [hdiv] at hs1 hs2
  simp only [roundMag]
  generalize spacing (n / d) = e at *
  have he := Nat.two_pow_pos e
  obtain ⟨b1, b2, b3, b4, b5, b6⟩ := nearestEven_spec (n := n) (Nat.mul_pos hd he)
  generalize nearestEven n (d * 2 ^ e) = m at *
  have hm53 : m ≤ 2 ^ 53 := by omega
  have hm52 : e = 0 ∨ 2 ^ 52 ≤ m := by omega
  have hu := magUnits_pattern hm53 hm52
  have hnext := magUnits_next e m hm53 hm52
  have hparity : (e * fracMod + m) % 2 = m % 2 := by
    have hf : fracMod = 2 ^ 52 := rfl
    rw [hf]
    omega
  refine ⟨?_, ?_, ?_⟩
  · calc 2 * n ≤ (2 * m + 1) * (d * 2 ^ e) := b1
      _ = (m * 2 ^ e + (m + 1) * 2 ^ e) * d := by ring
      _ ≤ _ := Nat.mul_le_mul_right _ (by rw [hu]; omega)
  · intro heq
    rw [hparity]
    apply b3
    have h1 : (m * 2 ^ e + (m + 1) * 2 ^ e) * d ≤ 2 * n := by
      rw [heq]
      exact Nat.mul_le_mul_right _ (by rw [hu]; omega)
    have h2 : (2 * m + 1) * (d * 2 ^ e) = (m * 2 ^ e + (m + 1) * 2 ^ e) * d := by ring
    omega
  · intro k hk
    have hpos : 0 < e * fracMod + m := by omega
    have hk1 : magUnits (k + 1) ≤ m * 2 ^ e := by
      rw [← hu]
      exact magUnits_strictMono.monotone hk
    have hlow : magUnits k + magUnits (k + 1) ≤ magUnits (e * fracMod + m - 1) + m * 2 ^ e :=
      Nat.add_le_add (magUnits_strictMono.monotone (by omega)) hk1
    rcases Nat.lt_or_ge (2 ^ 52) m with hbig | hsmall
    · have hprev : magUnits (e * fracMod + m - 1) = (m - 1) * 2 ^ e := by
        rw [show e * fracMod + m - 1 = e * fracMod + (m - 1) by omega]
        exact magUnits_pattern (by omega) (by omega)
      obtain ⟨j, rfl⟩ : ∃ j, m = j + 1 := ⟨m - 1, by omega⟩
      rw [hprev, Nat.add_sub_cancel] at hlow
      have h2 : (j * 2 ^ e + (j + 1) * 2 ^ e) * d + d * 2 ^ e = 2 * (j + 1) * (d * 2 ^ e) := by ring
      have h3 := Nat.mul_le_mul_right d hlow
      refine ⟨by omega, fun heq _ => ?_⟩
      rw [hparity]
      apply b4
      omega
    · rcases Nat.eq_zero_or_pos e with h0 | hepos
      · subst h0
        have hm0 : 0 < m := by omega
        have hprev : magUnits (0 * fracMod + m - 1) = m - 1 := by
          rw [show 0 * fracMod + m - 1 = 0 * fracMod + (m - 1) by omega]
          simpa using magUnits_pattern (e := 0) (m := m - 1) (by omega) (.inl rfl)
        obtain ⟨j, rfl⟩ : ∃ j, m = j + 1 := ⟨m - 1, by omega⟩
        rw [hprev, Nat.add_sub_cancel] at hlow
        simp only [Nat.pow_zero, Nat.mul_one] at *
        have h2 : (j + (j + 1)) * d + d = 2 * (j + 1) * d := by ring
        have h3 := Nat.mul_le_mul_right d hlow
        refine ⟨by omega, fun heq _ => ?_⟩
        rw [hparity]
        apply b4
        omega
      · obtain rfl : m = 2 ^ 52 := by omega
        have hle : 2 ^ 52 * (d * 2 ^ e) ≤ n := by
          by_contra hcon
          have := b6 (by omega)
          omega
        have hlt : magUnits k < 2 ^ 52 * 2 ^ e := by
          rw [← hu]
          exact magUnits_strictMono hk
        have h4 : (magUnits k + magUnits (k + 1)) * d < 2 * n := by
          calc (magUnits k + magUnits (k + 1)) * d < (2 ^ 52 * 2 ^ e + 2 ^ 52 * 2 ^ e) * d :=
                Nat.mul_lt_mul_of_pos_right (by omega) hd
            _ = 2 * (2 ^ 52 * (d * 2 ^ e)) := by ring
            _ ≤ 2 * n := by omega
        exact ⟨h4.le, fun heq => by omega⟩

/-- Rounding is monotone in the exact value. -/
theorem roundMag_mono {n d n' d' : Nat} (hd : 0 < d) (hd' : 0 < d') (h : n * d' ≤ n' * d) :
    roundMag n d ≤ roundMag n' d' := by
  by_contra hlt
  obtain ⟨-, -, hlow⟩ := roundMag_between (n := n) hd
  obtain ⟨hup, htie, -⟩ := roundMag_between (n := n') hd'
  generalize roundMag n d = p at *
  generalize roundMag n' d' = p' at *
  obtain ⟨h1, h2⟩ := hlow p' (by omega)
  obtain ⟨h3, -⟩ := hlow (p - 1) (by omega)
  have hstep : p = p' + 1 ∨ magUnits p' + magUnits (p' + 1) < magUnits (p - 1) + magUnits (p - 1 + 1) := by
    rcases Nat.lt_or_ge (p' + 1) p with hl | hg
    · exact .inr (Nat.add_lt_add (magUnits_strictMono (by omega)) (magUnits_strictMono (by omega)))
    · exact .inl (by omega)
  generalize magUnits p' + magUnits (p' + 1) = u at *
  have a1 := Nat.mul_le_mul_right d' h1
  have a2 := Nat.mul_le_mul_right d hup
  have a3 : u * d * d' = u * d' * d := by ring
  have a4 : 2 * n * d' = 2 * (n * d') := by ring
  have a5 : 2 * n' * d = 2 * (n' * d) := by ring
  have e1 : u * d = 2 * n := Nat.eq_of_mul_eq_mul_right hd' (by omega)
  have e2 : 2 * n' = u * d' := Nat.eq_of_mul_eq_mul_right hd (by omega)
  have hp' := htie e2
  rcases hstep with rfl | hstep
  · have := h2 e1 rfl
    omega
  · have := Nat.mul_lt_mul_of_pos_right hstep hd
    omega

/-- Rounding is exact on representable values. -/
theorem roundMag_exact {p d : Nat} (hd : 0 < d) : roundMag (magUnits p * d) d = p := by
  obtain ⟨hup, -, hlow⟩ := roundMag_between (n := magUnits p * d) hd
  generalize roundMag (magUnits p * d) d = r at *
  rcases Nat.lt_trichotomy r p with h | h | h
  · have h1 : magUnits r + magUnits (r + 1) < magUnits p + magUnits p :=
      Nat.add_lt_add_of_lt_of_le (magUnits_strictMono h) (magUnits_strictMono.monotone h)
    have h2 := Nat.mul_lt_mul_of_pos_right h1 hd
    have h3 : (magUnits p + magUnits p) * d = 2 * (magUnits p * d) := by ring
    omega
  · exact h
  · have h1 : magUnits p + magUnits p < magUnits p + magUnits (p + 1) :=
      Nat.add_lt_add_left (magUnits_strictMono (Nat.lt_succ_self p)) _
    have h2 := Nat.mul_lt_mul_of_pos_right h1 hd
    have h3 : (magUnits p + magUnits p) * d = 2 * (magUnits p * d) := by ring
    have := (hlow p h).1
    omega

/-- Scaling both sides of a fraction changes no rounding of it. -/
theorem nearestEven_scale {n d k : Nat} (hk : 0 < k) : nearestEven (k * n) (k * d) = nearestEven n d := by
  unfold nearestEven
  rw [Nat.mul_div_mul_left _ _ hk, Nat.mul_mod_mul_left]
  have h1 : 2 * (k * (n % d)) = k * (2 * (n % d)) := by ring
  simp only [h1, Nat.mul_lt_mul_left hk]

/-- Scaling by a power of two shifts the spacing exponent, from the first normal magnitude on. -/
theorem spacing_scale {n d k : Nat} (hd : 0 < d) (h : 2 ^ 52 ≤ n / d) :
    spacing (2 ^ k * n / d) = spacing (n / d) + k := by
  rcases Nat.eq_zero_or_pos k with rfl | hk
  · simp
  have hlo : 2 ^ k * (n / d) ≤ 2 ^ k * n / d := by
    rw [Nat.le_div_iff_mul_le hd, Nat.mul_assoc]
    exact Nat.mul_le_mul_left _ (Nat.div_mul_le_self n d)
  have hhi : 2 ^ k * n / d < 2 ^ k * (n / d + 1) := by
    rw [Nat.div_lt_iff_lt_mul hd, Nat.mul_assoc]
    exact Nat.mul_lt_mul_of_pos_left (Nat.lt_mul_of_div_lt (Nat.lt_succ_self _) hd) (Nat.two_pow_pos k)
  generalize 2 ^ k * n / d = q' at *
  generalize n / d = q at *
  have hq : q ≠ 0 := by omega
  have hp1 : 1 ≤ 2 ^ k := Nat.two_pow_pos k
  have hq'q : q ≤ q' := le_trans (Nat.le_mul_of_pos_left q hp1) hlo
  have hlog : q'.log2 = q.log2 + k := by
    rw [Nat.log2_eq_iff (by omega), show q.log2 + k + 1 = k + (q.log2 + 1) by omega, Nat.add_comm q.log2 k, pow_add, pow_add]
    exact ⟨le_trans (Nat.mul_le_mul_left _ (Nat.log2_self_le hq)) hlo,
      lt_of_lt_of_le hhi (Nat.mul_le_mul_left _ Nat.lt_log2_self)⟩
  have h2k : 2 ≤ 2 ^ k := by
    calc 2 = 2 ^ 1 := rfl
      _ ≤ 2 ^ k := Nat.pow_le_pow_right (by omega) hk
  have hbig : 2 ^ 53 ≤ q' := by
    calc 2 ^ 53 = 2 * 2 ^ 52 := by norm_num
      _ ≤ 2 ^ k * q := Nat.mul_le_mul h2k h
      _ ≤ q' := hlo
  have h52 : 52 ≤ q.log2 := (Nat.le_log2 hq).2 h
  unfold spacing
  rw [if_neg (by omega), hlog]
  split
  · have : q.log2 < 53 := (Nat.log2_lt hq).2 (by omega)
    omega
  · omega

/-- Scaling the exact value by a power of two moves a normal pattern that many exponents up (R188 item 2). -/
theorem roundMag_scale {n d k : Nat} (hd : 0 < d) (h : 2 ^ 52 ≤ n / d) :
    roundMag (2 ^ k * n) d = roundMag n d + k * fracMod := by
  unfold roundMag
  rw [spacing_scale hd h, show d * 2 ^ (spacing (n / d) + k) = 2 ^ k * (d * 2 ^ spacing (n / d)) by ring,
    nearestEven_scale (Nat.two_pow_pos k)]
  ring

end Sys2Proof
end

