-- ==== Sys2Proof/Laws/Float.lean ====
section
/-! SUPPORT. What the primitives on F do: one lemma for each fact the rules use of them. -/

namespace Sys2Proof

/-! ### Values and their magnitudes -/

theorem unitsOne_pos : 0 < unitsOne := by decide +kernel

theorem magUnits_one : magUnits 0x3FF0000000000000 = unitsOne := by decide +kernel

theorem roundTo_eq (s : Bool) (num den : Nat) : roundTo s num den = ofMag s (roundMag num den) := by unfold roundTo; rfl

/-- The product of two finite values. -/
theorem fmul_fin (s t : Bool) (m n : Fin infMag) :
    fmul (.fin s m) (.fin t n) = ofMag (s != t) (roundMag (magUnits m * magUnits n) unitsOne) := roundTo_eq _ _ _

/-- The quotient of two finite values, the divisor not zero. -/
theorem fdiv_fin (s t : Bool) (m : Fin infMag) {n : Fin infMag} (h : n.val ≠ 0) :
    fdiv (.fin s m) (.fin t n) = ofMag (s != t) (roundMag (magUnits m * unitsOne) (magUnits n)) := by
  simp only [fdiv, if_neg h]
  exact roundTo_eq _ _ _

/-- The sum of two finite values. -/
theorem fadd_fin (s t : Bool) (m n : Fin infMag) :
    fadd (.fin s m) (.fin t n) =
      if (F.fin s m).units + (F.fin t n).units = 0 then F.zeroOf (s && t)
      else ofUnits ((F.fin s m).units + (F.fin t n).units) := rfl

/-- A whole number of units with at most 53 significant bits is representable. -/
theorem representable (m e : Nat) (hm : m < 2 ^ 53) : ∃ p, magUnits p = m * 2 ^ e := by
  induction e generalizing m with
  | zero => exact ⟨0 * fracMod + m, magUnits_pattern hm.le (.inl rfl)⟩
  | succ e ih =>
    rcases Nat.lt_or_ge m (2 ^ 52) with h | h
    · obtain ⟨p, hp⟩ := ih (m * 2) (by omega)
      exact ⟨p, by rw [hp, pow_succ]; ring⟩
    · exact ⟨(e + 1) * fracMod + m, magUnits_pattern hm.le (.inr h)⟩

theorem roundMag_of_units {p n : Nat} (h : magUnits p = n) : roundMag n 1 = p := by
  have := roundMag_exact (p := p) (d := 1) (by omega)
  rwa [Nat.mul_one, h] at this

@[simp] theorem roundMag_zero {d : Nat} (hd : 0 < d) : roundMag 0 d = 0 := by
  have := roundMag_exact (p := 0) hd
  simpa using this

theorem ofMag_of_lt {s : Bool} {m : Nat} (h : m < infMag) : ofMag s m = .fin s ⟨m, h⟩ := dif_pos h

theorem ofMag_of_ge {s : Bool} {m : Nat} (h : infMag ≤ m) : ofMag s m = .inf s := dif_neg (by omega)

/-- Rounding a finite nonzero value's own units gives the value back. -/
theorem ofUnits_units {a : F} (ha : a.finite = true) (h0 : a.units ≠ 0) : ofUnits a.units = a := by
  match a, ha with
  | .fin false m, _ =>
    have : ¬ ((magUnits m : Int) < 0) := by omega
    simp only [F.units, ofUnits, roundTo, this, decide_false, Int.natAbs_natCast, roundMag_of_units rfl]
    exact ofMag_of_lt m.isLt
  | .fin true m, _ =>
    have h1 : magUnits m ≠ 0 := by simpa [F.units] using h0
    have : -(magUnits m : Int) < 0 := by omega
    simp only [F.units, ofUnits, roundTo, this, decide_true, Int.natAbs_neg, Int.natAbs_natCast, roundMag_of_units rfl]
    exact ofMag_of_lt m.isLt

/-- A natural number of units that some pattern holds is that pattern's value. -/
theorem ofUnits_nat {p : Nat} (h : p < infMag) : ofUnits (magUnits p : Int) = .fin false ⟨p, h⟩ := by
  have : ¬ ((magUnits p : Int) < 0) := by omega
  simp only [ofUnits, roundTo, this, decide_false, Int.natAbs_natCast, roundMag_of_units rfl]
  exact ofMag_of_lt h

/-! ### Order -/

theorem F.le_iff {a b : F} : a.le b = true ↔ a ≠ .nan ∧ b ≠ .nan ∧ a.place ≤ b.place := by
  simp [F.le, and_assoc]

theorem F.lt_iff {a b : F} : a.lt b = true ↔ a ≠ .nan ∧ b ≠ .nan ∧ a.place < b.place := by
  simp [F.lt, and_assoc]

theorem F.ne_nan_of_finite {a : F} (h : a.finite = true) : a ≠ .nan := by
  rintro rfl
  exact absurd h (by decide)

theorem F.le_refl {a : F} (h : a ≠ .nan) : a.le a = true := F.le_iff.2 ⟨h, h, Int.le_refl _⟩

theorem F.le_trans {a b c : F} (h1 : a.le b = true) (h2 : b.le c = true) : a.le c = true := by
  rw [F.le_iff] at *
  exact ⟨h1.1, h2.2.1, Int.le_trans h1.2.2 h2.2.2⟩

theorem F.lt_of_lt_of_le {a b c : F} (h1 : a.lt b = true) (h2 : b.le c = true) : a.lt c = true := by
  rw [F.le_iff] at h2
  rw [F.lt_iff] at *
  exact ⟨h1.1, h2.2.1, Int.lt_of_lt_of_le h1.2.2 h2.2.2⟩

/-- A positive value is a positive finite value or the positive infinity. -/
theorem F.pos_cases {x : F} (h : F.zero.lt x = true) :
    x = .inf false ∨ ∃ m : Fin infMag, 0 < m.val ∧ x = .fin false m := by
  rw [F.lt_iff, show F.zero.place = 0 by decide] at h
  match x with
  | .nan => exact absurd rfl h.2.1
  | .inf false => exact .inl rfl
  | .inf true => exact absurd h.2.2 (by decide)
  | .fin false m => exact .inr ⟨m, by simpa [F.place] using h.2.2, rfl⟩
  | .fin true m => exact absurd h.2.2 (by simp only [F.place]; omega)

/-- A finite value that is not below zero: `−0` or a value with a clear sign. -/
theorem F.nonneg_cases {x : F} (hx : x.finite = true) (h : F.zero.le x = true) :
    x = F.zeroOf true ∨ ∃ m : Fin infMag, x = .fin false m := by
  rw [F.le_iff, show F.zero.place = 0 by decide] at h
  match x, hx with
  | .fin false m, _ => exact .inr ⟨m, rfl⟩
  | .fin true m, _ =>
    left
    have : m.val = 0 := by
      have := h.2.2
      simp only [F.place] at this
      omega
    simp only [F.zeroOf]
    congr 1
    exact Fin.ext this

theorem F.isZero_iff {x : F} : x.isZero = true ↔ ∃ s, x = F.zeroOf s := by
  match x with
  | .nan => exact ⟨fun h => absurd h (by decide), fun ⟨s, h⟩ => F.noConfusion h⟩
  | .inf s => exact ⟨fun h => absurd h (by cases s <;> decide), fun ⟨s, h⟩ => F.noConfusion h⟩
  | .fin s m =>
    have h0 : F.zero.place = 0 := by decide
    have h1 : (F.fin s m).place = 0 ↔ m.val = 0 := by cases s <;> simp only [F.place] <;> omega
    simp only [F.isZero, F.eq, h0, Bool.and_eq_true, decide_eq_true_eq, h1]
    constructor
    · intro h
      refine ⟨s, ?_⟩
      simp only [F.zeroOf]
      congr 1
      exact Fin.ext h.2
    · rintro ⟨t, ht⟩
      simp only [F.zeroOf] at ht
      cases ht
      cases s <;> decide

/-- The place of a rounded magnitude, an overflow standing at infinity. -/
theorem place_ofMag_false (m : Nat) : (ofMag false m).place = (min m infMag : Nat) := by
  rcases Nat.lt_or_ge m infMag with h | h
  · rw [ofMag_of_lt h, Nat.min_eq_left h.le]
    rfl
  · rw [ofMag_of_ge h, Nat.min_eq_right h]
    rfl

theorem ofMag_ne_nan (s : Bool) (m : Nat) : ofMag s m ≠ .nan := by
  unfold ofMag
  split <;> simp

theorem ofMag_le {m n : Nat} (h : m ≤ n) : (ofMag false m).le (ofMag false n) = true := by
  rw [F.le_iff, place_ofMag_false, place_ofMag_false]
  exact ⟨ofMag_ne_nan _ _, ofMag_ne_nan _ _, by omega⟩

theorem finite_ofMag {s : Bool} {m : Nat} : (ofMag s m).finite = true ↔ m < infMag := by
  rcases Nat.lt_or_ge m infMag with h | h
  · simp [ofMag_of_lt h, F.finite, h]
  · rw [ofMag_of_ge h]
    simp only [F.finite]
    simp only [Bool.false_eq_true, false_iff]
    omega

/-- A value finite and not above another finite one stays finite below it. -/
theorem F.finite_of_le {x y : F} (h0 : F.zero.le x = true) (h : x.le y = true) (hy : y.finite = true) : x.finite = true := by
  rw [F.le_iff] at *
  match x, y, hy with
  | .nan, _, _ => exact absurd rfl h.1
  | .fin _ _, _, _ => rfl
  | .inf true, _, _ => exact absurd h0.2.2 (by decide)
  | .inf false, .fin false n, _ =>
    have := h.2.2
    simp only [F.place] at this
    omega
  | .inf false, .fin true n, _ =>
    have := h.2.2
    simp only [F.place, infMag] at this
    omega

/-! ### Sums -/

/-- A sum with a zero keeps the other operand, unless that one is `−0`. -/
theorem fadd_zeroOf {a : F} {s : Bool} (h : a ≠ F.zeroOf true) : fadd a (F.zeroOf s) = a := by
  match a with
  | .nan => rfl
  | .inf _ => rfl
  | .fin t m =>
    have hz : (F.zeroOf s).units = 0 := by cases s <;> decide
    have hf : fadd (.fin t m) (F.zeroOf s) =
        if (F.fin t m).units + (F.zeroOf s).units = 0 then F.zeroOf (t && s)
        else ofUnits ((F.fin t m).units + (F.zeroOf s).units) := rfl
    rw [hf, hz, Int.add_zero]
    split
    · rename_i h0
      have hm : m.val = 0 := by
        cases t <;> simp only [F.units] at h0 <;> exact magUnits_eq_zero.1 (by omega)
      have hm' : m = ⟨0, by decide⟩ := Fin.ext hm
      cases t
      · rw [hm']
        rfl
      · exact absurd (by rw [hm']; rfl) h
    · rename_i h0
      exact ofUnits_units rfl h0

/-- The rounding of a nonzero number of units is no zero. -/
theorem ofUnits_ne_zeroOf {z : Int} (h : z ≠ 0) (s : Bool) : ofUnits z ≠ F.zeroOf s := by
  have h1 : 0 < roundMag z.natAbs 1 := by
    have : roundMag (magUnits 1) 1 ≤ roundMag z.natAbs 1 := roundMag_mono (by omega) (by omega) (by
      have : magUnits 1 = 1 := by decide
      omega)
    rw [roundMag_of_units rfl] at this
    omega
  intro heq
  simp only [ofUnits, roundTo, F.zeroOf] at heq
  rcases Nat.lt_or_ge (roundMag z.natAbs 1) infMag with hlt | hge
  · rw [ofMag_of_lt hlt] at heq
    have := congrArg F.place heq
    generalize decide (z < 0) = t at *
    cases t <;> cases s <;> simp [F.place] at this <;> omega
  · rw [ofMag_of_ge hge] at heq
    exact F.noConfusion heq

/-- A sum is `−0` only if its first operand is (R144 item 1). -/
theorem fadd_ne_negZero {a b : F} (h : a ≠ F.zeroOf true) : fadd a b ≠ F.zeroOf true := by
  match a, b with
  | .nan, _ => simp [fadd, F.zeroOf]
  | .inf _, .nan => simp [fadd, F.zeroOf]
  | .inf s, .inf t =>
    simp only [fadd]
    split <;> simp [F.zeroOf]
  | .inf _, .fin _ _ => simp [fadd, F.zeroOf]
  | .fin _ _, .nan => simp [fadd, F.zeroOf]
  | .fin _ _, .inf _ => simp [fadd, F.zeroOf]
  | .fin s m, .fin t n =>
    simp only [fadd]
    split
    · rename_i h0
      intro heq
      cases s
      · simp [F.zeroOf] at heq
      · cases t
        · simp [F.zeroOf] at heq
        · simp only [F.units] at h0
          apply h
          have : m.val = 0 := magUnits_eq_zero.1 (by omega)
          simp only [F.zeroOf]
          congr 1
          exact Fin.ext this
    · rename_i h0
      exact ofUnits_ne_zeroOf h0 true

/-! ### Products and quotients -/

/-- A product with a zero and a finite number is a zero whose sign is the exclusive-or of the signs (R13). -/
theorem fmul_zeroOf {a : F} {s : Bool} (ha : a.finite = true) : fmul a (F.zeroOf s) = F.zeroOf (a.sign != s) := by
  match a, ha with
  | .fin t m, _ =>
    have : fmul (.fin t m) (F.zeroOf s) = roundTo (t != s) (magUnits m * magUnits 0) unitsOne := rfl
    rw [this, magUnits_zero, Nat.mul_zero, roundTo, roundMag_zero unitsOne_pos, ofMag_of_lt (by decide)]
    rfl

theorem zeroOf_fmul {a : F} {s : Bool} (ha : a.finite = true) : fmul (F.zeroOf s) a = F.zeroOf (s != a.sign) := by
  match a, ha with
  | .fin t m, _ =>
    have : fmul (F.zeroOf s) (.fin t m) = roundTo (s != t) (magUnits 0 * magUnits m) unitsOne := rfl
    rw [this, magUnits_zero, Nat.zero_mul, roundTo, roundMag_zero unitsOne_pos, ofMag_of_lt (by decide)]
    rfl

/-- Multiplication by 1.0 changes no value. -/
theorem fmul_one {a : F} (ha : a.finite = true) : fmul a F.one = a := by
  match a, ha with
  | .fin t m, _ =>
    have : fmul (.fin t m) F.one = roundTo (t != false) (magUnits m * magUnits 0x3FF0000000000000) unitsOne := rfl
    rw [this, magUnits_one, roundTo, roundMag_exact unitsOne_pos, ofMag_of_lt m.isLt]
    cases t <;> rfl

/-- Multiplication by a nonnegative finite value is monotone on nonnegative values. -/
theorem fmul_mono {r : F} {m : Fin infMag} {y : F} (hr : r.finite = true) (h0 : F.zero.le r = true)
    (hy : (F.fin false m).le y = true) (hfin : y.finite = true) :
    (fmul r (.fin false m)).le (fmul r y) = true := by
  rw [F.le_iff] at hy
  match y, hfin with
  | .fin true n, _ =>
    have h1 : (m.val : Int) ≤ -(n.val : Int) := hy.2.2
    obtain rfl : m = ⟨0, by decide⟩ := Fin.ext (by show m.val = 0; omega)
    obtain rfl : n = ⟨0, by decide⟩ := Fin.ext (by show n.val = 0; omega)
    rw [show F.fin false ⟨0, by decide⟩ = F.zeroOf false from rfl, show F.fin true ⟨0, by decide⟩ = F.zeroOf true from rfl,
      fmul_zeroOf hr, fmul_zeroOf hr]
    cases r.sign <;> decide
  | .fin false n, _ =>
    have h1 : m.val ≤ n.val := by simpa [F.place] using hy.2.2
    have h2 := magUnits_mono h1
    rcases F.nonneg_cases hr h0 with rfl | ⟨k, rfl⟩
    · rw [zeroOf_fmul rfl, zeroOf_fmul rfl]
      simp only [F.sign]
      decide
    · have e1 : fmul (.fin false k) (.fin false m) = ofMag false (roundMag (magUnits k * magUnits m) unitsOne) := fmul_fin _ _ _ _
      have e2 : fmul (.fin false k) (.fin false n) = ofMag false (roundMag (magUnits k * magUnits n) unitsOne) := fmul_fin _ _ _ _
      rw [e1, e2]
      exact ofMag_le (roundMag_mono unitsOne_pos unitsOne_pos
        (Nat.mul_le_mul_right _ (Nat.mul_le_mul_left _ h2)))

/-- Multiplication of an amplitude by a number of magnitude at most 1 makes it no larger (R116 item 5). -/
theorem abs_fmul_le {a s : F} (ha : a.finite = true) (hs : s.finite = true) (h : s.abs.le F.one = true) :
    (fmul a s).finite = true ∧ (fmul a s).abs.le a.abs = true := by
  match a, s, ha, hs with
  | .fin t m, .fin u n, _, _ =>
    have h1 : n.val ≤ 0x3FF0000000000000 := by
      have := (F.le_iff.1 h).2.2
      simp only [F.abs, F.one, F.place] at this
      omega
    have h2 : magUnits n ≤ unitsOne := by
      rw [← magUnits_one]
      exact magUnits_mono h1
    have e : fmul (.fin t m) (.fin u n) = ofMag (t != u) (roundMag (magUnits m * magUnits n) unitsOne) := fmul_fin _ _ _ _
    have h3 : roundMag (magUnits m * magUnits n) unitsOne ≤ m.val := by
      refine le_of_le_of_eq (roundMag_mono unitsOne_pos unitsOne_pos ?_) (roundMag_exact (p := m.val) unitsOne_pos)
      gcongr
    have h4 : roundMag (magUnits m * magUnits n) unitsOne < infMag := lt_of_le_of_lt h3 m.isLt
    rw [e, ofMag_of_lt h4]
    refine ⟨rfl, F.le_iff.2 ⟨by simp [F.abs], by simp [F.abs], ?_⟩⟩
    simp only [F.abs, F.place]
    omega

/-- Division by a positive finite value is monotone on nonnegative values. -/
theorem fdiv_mono {x y d : F} (hd : d.finite = true) (hd0 : F.zero.lt d = true)
    (hx0 : F.zero.lt x = true) (h : x.le y = true) : (fdiv x d).le (fdiv y d) = true := by
  have hy0 := F.lt_of_lt_of_le hx0 h
  rcases F.pos_cases hd0 with rfl | ⟨k, hk, rfl⟩
  · exact absurd hd (by decide)
  have hk' : 0 < magUnits k := by
    have := magUnits_eq_zero (p := k.val)
    omega
  have hdiv : ∀ n : Fin infMag, fdiv (.fin false n) (.fin false k) =
      ofMag false (roundMag (magUnits n * unitsOne) (magUnits k)) := by
    intro n
    exact fdiv_fin _ _ _ (by omega)
  rcases F.pos_cases hy0 with rfl | ⟨n, hn, rfl⟩
  · have : fdiv (.inf false) (.fin false k) = .inf false := rfl
    rw [this]
    rcases F.pos_cases hx0 with rfl | ⟨m, hm, rfl⟩
    · rw [this]
      decide
    · rw [hdiv, F.le_iff]
      refine ⟨ofMag_ne_nan _ _, by simp, ?_⟩
      rw [place_ofMag_false]
      simp only [F.place]
      omega
  · rcases F.pos_cases hx0 with rfl | ⟨m, hm, rfl⟩
    · have := (F.le_iff.1 h).2.2
      simp only [F.place] at this
      have := n.isLt
      omega
    · rw [hdiv, hdiv]
      have h1 : m.val ≤ n.val := by
        have := (F.le_iff.1 h).2.2
        simpa [F.place] using this
      have h2 := magUnits_mono h1
      refine ofMag_le (roundMag_mono hk' hk' ?_)
      gcongr

/-! ### The floor, and the wrap into [0, 1) -/

/-- A finite value not below `+0`, split by the floor: the integral part and the rest are both representable, so the floor and the
difference are exact (R113, R114). -/
theorem floor_split (p : Nat) :
    ∃ f w, magUnits f = magUnits p / unitsOne * unitsOne ∧ magUnits w = magUnits p % unitsOne ∧ f ≤ p ∧
      w < 0x3FF0000000000000 := by
  obtain ⟨e, m, -, hm, -, hu⟩ := pattern_split p
  have hone : unitsOne = 2 ^ 1074 := by unfold unitsOne; rfl
  have hw : ∃ w, magUnits w = magUnits p % unitsOne := by
    rw [hu, hone]
    generalize 1074 = N
    rcases Nat.lt_or_ge e N with he | he
    · obtain ⟨j, rfl⟩ : ∃ j, N = e + j := ⟨N - e, by omega⟩
      rw [pow_add, Nat.mul_comm m, Nat.mul_mod_mul_left, Nat.mul_comm]
      exact representable _ _ (lt_of_le_of_lt (Nat.mod_le _ _) hm)
    · obtain ⟨j, rfl⟩ : ∃ j, e = N + j := ⟨e - N, by omega⟩
      refine ⟨0, ?_⟩
      rw [pow_add, show m * (2 ^ N * 2 ^ j) = m * 2 ^ j * 2 ^ N by ring, Nat.mul_mod_left]
      rfl
  have hf : ∃ f, magUnits f = magUnits p / unitsOne * unitsOne := by
    rw [hu, hone]
    generalize 1074 = N
    rcases Nat.lt_or_ge e N with he | he
    · obtain ⟨j, rfl⟩ : ∃ j, N = e + j := ⟨N - e, by omega⟩
      rw [pow_add, Nat.mul_comm m, Nat.mul_div_mul_left _ _ (Nat.two_pow_pos e), ← pow_add]
      exact representable _ _ (lt_of_le_of_lt (Nat.div_le_self _ _) hm)
    · obtain ⟨j, rfl⟩ : ∃ j, e = N + j := ⟨e - N, by omega⟩
      refine ⟨p, ?_⟩
      rw [hu, pow_add, show m * (2 ^ N * 2 ^ j) = m * 2 ^ j * 2 ^ N by ring, Nat.mul_div_cancel _ (Nat.two_pow_pos N)]
  obtain ⟨w, hw⟩ := hw
  obtain ⟨f, hf⟩ := hf
  refine ⟨f, w, hf, hw, ?_, ?_⟩
  · rw [← magUnits_le_iff, hf]
    exact Nat.div_mul_le_self _ _
  · rw [← magUnits_lt_iff, hw, magUnits_one]
    exact Nat.mod_lt _ unitsOne_pos

/-- `t − floor(t)` of a finite nonnegative `t` is exact and lies in [0, 1), with a clear sign (R114). -/
theorem fsub_ffloor (p : Fin infMag) :
    ∃ w : Fin infMag, w.val < 0x3FF0000000000000 ∧ magUnits w = magUnits p % unitsOne ∧
      fsub (.fin false p) (ffloor (.fin false p)) = .fin false w := by
  obtain ⟨f, w, hf, hw, hfp, hw1⟩ := floor_split p
  have hwlt : w < infMag := lt_trans hw1 (by decide)
  have hflt : f < infMag := lt_of_le_of_lt hfp p.isLt
  have hdm := Nat.div_add_mod (magUnits p) unitsOne
  refine ⟨⟨w, hwlt⟩, hw1, hw, ?_⟩
  have hfl : ffloor (.fin false p) = .fin false ⟨f, hflt⟩ := by
    have hq : (F.fin false p).units / (unitsOne : Int) = ((magUnits p / unitsOne : Nat) : Int) := by
      simp only [F.units, Int.natCast_ediv]
    simp only [ffloor, hq]
    split
    · rename_i h0
      have : magUnits f = 0 := by rw [hf, Int.ofNat_eq_zero.1 h0, Nat.zero_mul]
      have : f = 0 := magUnits_eq_zero.1 this
      subst this
      rfl
    · rw [← Nat.cast_mul, ← hf]
      exact ofUnits_nat hflt
  have hs : fsub (.fin false p) (.fin false ⟨f, hflt⟩) =
      if (magUnits p : Int) + -(magUnits f : Int) = 0 then F.zeroOf (false && !false)
      else ofUnits ((magUnits p : Int) + -(magUnits f : Int)) := rfl
  have hz : (magUnits p : Int) + -(magUnits f : Int) = (magUnits w : Int) := by
    rw [hf, hw]
    have := Nat.mul_comm (magUnits p / unitsOne) unitsOne
    omega
  rw [hfl, hs, hz]
  split
  · rename_i h0
    have : w = 0 := magUnits_eq_zero.1 (by omega)
    subst this
    rfl
  · exact ofUnits_nat hwlt

/-- A phase below 1 added to a finite nonnegative increment stays finite (R114). -/
theorem fadd_phase_finite {a b : Fin infMag} (ha : a.val < 0x3FF0000000000000) :
    ∃ t : Fin infMag, fadd (.fin false a) (.fin false b) = .fin false t := by
  have hadd : fadd (.fin false a) (.fin false b) =
      if (magUnits a : Int) + (magUnits b : Int) = 0 then F.zeroOf (false && false)
      else ofUnits ((magUnits a : Int) + (magUnits b : Int)) := rfl
  rw [hadd]
  split
  · exact ⟨_, rfl⟩
  · have h1 : ¬ ((magUnits a : Int) + (magUnits b : Int) < 0) := by omega
    have h2 : ((magUnits a : Int) + (magUnits b : Int)).natAbs = magUnits a + magUnits b := by omega
    have hlt : roundMag (magUnits a + magUnits b) 1 < infMag := by
      by_contra hge
      obtain ⟨-, -, hlow⟩ := roundMag_between (n := magUnits a + magUnits b) (d := 1) (by omega)
      have := (hlow (infMag - 1) (by omega)).1
      have e1 : magUnits a < unitsOne := by
        rw [← magUnits_one]
        exact magUnits_strictMono ha
      have e2 : magUnits b ≤ magUnits (infMag - 1) := magUnits_mono (by have := b.isLt; omega)
      have e3 : magUnits (infMag - 1) + 2 * unitsOne ≤ magUnits (infMag - 1 + 1) := by decide +kernel
      generalize magUnits (infMag - 1) = u at *
      generalize magUnits (infMag - 1 + 1) = v at *
      omega
    refine ⟨⟨_, hlt⟩, ?_⟩
    simp only [ofUnits, roundTo, h1, decide_false, h2]
    exact ofMag_of_lt hlt

/-- A sum of finite values of opposite signs is finite: it is no larger than the larger operand. -/
theorem fadd_opposite_finite (a b : Fin infMag) : (fadd (.fin false a) (.fin true b)).finite = true := by
  have hadd : fadd (.fin false a) (.fin true b) =
      if (magUnits a : Int) + -(magUnits b : Int) = 0 then F.zeroOf (false && true)
      else ofUnits ((magUnits a : Int) + -(magUnits b : Int)) := rfl
  rw [hadd]
  split
  · rfl
  · have bound : ∀ p : Fin infMag, ((magUnits a : Int) + -(magUnits b : Int)).natAbs ≤ magUnits p →
        roundMag ((magUnits a : Int) + -(magUnits b : Int)).natAbs 1 < infMag := by
      intro p hp
      have h1 := roundMag_mono (d := 1) (d' := 1) (by omega) (by omega) (Nat.mul_le_mul_right 1 hp)
      have h2 := roundMag_exact (p := p.val) (d := 1) (by omega)
      rw [Nat.mul_one] at h2
      rw [h2] at h1
      exact lt_of_le_of_lt h1 p.isLt
    simp only [ofUnits, roundTo]
    rw [finite_ofMag]
    rcases Nat.le_total (magUnits a) (magUnits b) with h | h
    · exact bound b (by omega)
    · exact bound a (by omega)

/-- A phase below 1 added to any finite value stays finite (R116 item 6). -/
theorem fadd_phase_of_finite {a : Fin infMag} {x : F} (ha : a.val < 0x3FF0000000000000) (hx : x.finite = true) :
    (fadd (.fin false a) x).finite = true := by
  match x, hx with
  | .fin false b, _ =>
    obtain ⟨t, ht⟩ := fadd_phase_finite (b := b) ha
    rw [ht]
    rfl
  | .fin true b, _ => exact fadd_opposite_finite a b

end Sys2Proof
end

