-- ==== Sys2Proof/Laws/Free.lean ====
section
/-! SUPPORT. SINTURN and EXP2 as the machine applies them are the named functions, so they have the properties of R15 and R16. -/

namespace Sys2Proof

/-- The values `sinturn` computes are the named function's own. -/
theorem sinturn_eq_named (id : Nat) (x : F) : sinturn id x = (sinturnNamed id).1 x := by
  have h := (sinturnNamed id).2
  unfold sinturn
  split
  · rename_i hx
    rw [hx, h.s3]
  · split
    · rfl
    · rename_i hx
      rw [h.s2 x (by simpa using hx)]

/-- `sinturn` has the properties of R15. -/
theorem sinturn_ok (id : Nat) : SinturnOk (sinturn id) := by
  have : sinturn id = (sinturnNamed id).1 := funext (sinturn_eq_named id)
  rw [this]
  exact (sinturnNamed id).2

/-- The sine of a finite argument is NaN or of magnitude at most 1 (S1 and S1b together). -/
theorem sinturn_cases (id : Nat) (x : F) :
    sinturn id x = .nan ∨ ((sinturn id x).finite = true ∧ (sinturn id x).abs.le F.one = true) := by
  have h := sinturn_ok id
  by_cases hx : x.finite = true
  · by_cases hb : x.abs.le (pow2 1020) = true
    · exact .inr (h.s1 x hx hb)
    · refine h.s1b x hx ?_
      have hn : x.abs ≠ .nan := by
        match x, hx with
        | .fin _ _, _ => simp [F.abs]
      have hp : pow2 1020 ≠ .nan := by decide +kernel
      rw [F.le_iff] at hb
      rw [F.lt_iff]
      refine ⟨hp, hn, ?_⟩
      by_contra hc
      exact hb ⟨hn, hp, by omega⟩
  · exact .inl (h.s2 x (by simpa using hx))

/-- The values `exp2` computes are the named function's own. -/
theorem exp2_eq_named (id : Nat) (x : F) : exp2 id x = (exp2Named id).1 x := by
  unfold exp2
  split
  · rename_i n hn
    split
    · rename_i hr
      exact ((exp2Named id).2.e1 x n hn hr.1 hr.2).symm
    · rfl
  · rfl

/-- `exp2` has the properties of R16. -/
theorem exp2_ok (id : Nat) : Exp2Ok (exp2 id) := by
  have : exp2 id = (exp2Named id).1 := funext (exp2_eq_named id)
  rw [this]
  exact (exp2Named id).2

/-- `EXP2(+0) = 1` (E1). -/
@[simp] theorem exp2_zero (id : Nat) : exp2 id F.zero = F.one := by
  have h := (exp2_ok id).e1 F.zero 0 (by decide +kernel) (by omega) (by omega)
  rw [h]
  decide +kernel

/-- `i2f` is exact on integers of at most 53 bits (R13). -/
theorem i2f_nat (n : Nat) (h : n ≤ 2 ^ 53) : ∃ p : Fin infMag, magUnits p = n * unitsOne ∧ i2f (n : Int) = .fin false p := by
  obtain ⟨p, hp⟩ : ∃ p, magUnits p = n * unitsOne := by
    rcases Nat.lt_or_ge n (2 ^ 53) with hn | hn
    · have hone : unitsOne = 2 ^ 1074 := by unfold unitsOne; rfl
      rw [hone]
      exact representable n 1074 hn
    · have : n = 1 * 2 ^ 53 := by omega
      have hone : unitsOne = 2 ^ 1074 := by unfold unitsOne; rfl
      rw [this, hone, Nat.mul_assoc, ← pow_add]
      exact representable 1 _ (by omega)
  have hlt : p < infMag := by
    rw [← magUnits_lt_iff, hp]
    have h1 : (2 ^ 53 : Nat) * unitsOne < magUnits infMag := by decide +kernel
    exact lt_of_le_of_lt (Nat.mul_le_mul_right _ h) h1
  refine ⟨⟨p, hlt⟩, hp, ?_⟩
  have : (n : Int) * (unitsOne : Int) = (magUnits p : Int) := by rw [hp, Nat.cast_mul]
  simp only [i2f, this]
  exact ofUnits_nat hlt

/-- Rounding a negated number of units gives the negated value. -/
theorem ofUnits_neg {z : Int} (h : 0 < z) : ofUnits (-z) = (ofUnits z).neg := by
  have h1 : decide (-z < 0) = true := by simp [h]
  have h2 : decide (z < 0) = false := by simp; omega
  simp only [ofUnits, roundTo, h1, h2, Int.natAbs_neg]
  rcases Nat.lt_or_ge (roundMag z.natAbs 1) infMag with hl | hl
  · rw [ofMag_of_lt hl, ofMag_of_lt hl]
    rfl
  · rw [ofMag_of_ge hl, ofMag_of_ge hl]
    rfl

theorem i2f_neg {n : Int} (h : 0 < n) : i2f (-n) = (i2f n).neg := by
  unfold i2f
  rw [Int.neg_mul]
  exact ofUnits_neg (Int.mul_pos h (by exact_mod_cast unitsOne_pos))

end Sys2Proof
end

