-- ==== Sys2Proof/Laws/State.lean ====
section
/-! SUPPORT. One lemma per field per update of State, and the laws of the four-register file. -/

namespace Sys2Proof

/-! ### The four-register file -/

@[simp] theorem Four.get_set_self {α : Type} (q : Four α) (i : Fin 4) (v : α) : (q.set i v).get i = v := by
  match i with
  | 0 | 1 | 2 | 3 => rfl

@[simp] theorem Four.get_set_ne {α : Type} (q : Four α) {i j : Fin 4} (v : α) (h : j ≠ i) :
    (q.set i v).get j = q.get j := by
  match i, j with
  | 0, 0 | 1, 1 | 2, 2 | 3, 3 => exact absurd rfl h
  | 0, 1 | 0, 2 | 0, 3 | 1, 0 | 1, 2 | 1, 3 | 2, 0 | 2, 1 | 2, 3 | 3, 0 | 3, 1 | 3, 2 => rfl

@[simp] theorem Four.set_set {α : Type} (q : Four α) (i : Fin 4) (v w : α) : (q.set i v).set i w = q.set i w := by
  match i with
  | 0 | 1 | 2 | 3 => rfl

@[simp] theorem Four.set_get {α : Type} (q : Four α) (i : Fin 4) : q.set i (q.get i) = q := by
  match i with
  | 0 | 1 | 2 | 3 => rfl

/-- Two files with the same registers are the same file. -/
theorem Four.ext_get {α : Type} {p q : Four α} (h : ∀ i, p.get i = q.get i) : p = q := by
  cases p
  cases q
  have h0 := h 0
  have h1 := h 1
  have h2 := h 2
  have h3 := h 3
  simp only [Four.get] at h0 h1 h2 h3
  subst h0 h1 h2 h3
  rfl

namespace Machine

/-! ### modifyOp -/

@[simp] theorem modifyOp_key (i : Fin 4) (f : Operator → Operator) (s : State) : (modifyOp i f s).key = s.key := rfl
@[simp] theorem modifyOp_pinc (i : Fin 4) (f : Operator → Operator) (s : State) : (modifyOp i f s).pinc = s.pinc := rfl
@[simp] theorem modifyOp_op (i : Fin 4) (f : Operator → Operator) (s : State) : (modifyOp i f s).op = s.op.set i (f (s.op.get i)) := rfl
@[simp] theorem modifyOp_mixdiag (i : Fin 4) (f : Operator → Operator) (s : State) : (modifyOp i f s).mixdiag = s.mixdiag := rfl
@[simp] theorem modifyOp_cq (i : Fin 4) (f : Operator → Operator) (s : State) : (modifyOp i f s).cq = s.cq := rfl
@[simp] theorem modifyOp_refused (i : Fin 4) (f : Operator → Operator) (s : State) : (modifyOp i f s).refused = s.refused := rfl
@[simp] theorem modifyOp_cfg (i : Fin 4) (f : Operator → Operator) (s : State) : (modifyOp i f s).cfg = s.cfg := rfl
@[simp] theorem modifyOp_diags (i : Fin 4) (f : Operator → Operator) (s : State) : (modifyOp i f s).diags = s.diags := rfl
@[simp] theorem modifyOp_samples (i : Fin 4) (f : Operator → Operator) (s : State) : (modifyOp i f s).samples = s.samples := rfl
@[simp] theorem modifyOp_bufs (i : Fin 4) (f : Operator → Operator) (s : State) : (modifyOp i f s).bufs = s.bufs := rfl
@[simp] theorem modifyOp_keepAlive (i : Fin 4) (f : Operator → Operator) (s : State) : (modifyOp i f s).keepAlive = s.keepAlive := rfl
@[simp] theorem modifyOp_host (i : Fin 4) (f : Operator → Operator) (s : State) : (modifyOp i f s).host = s.host := rfl

/-! ### setPhase -/

@[simp] theorem setPhase_key (i : Fin 4) (v : F) (s : State) : (setPhase i v s).key = s.key := rfl
@[simp] theorem setPhase_pinc (i : Fin 4) (v : F) (s : State) : (setPhase i v s).pinc = s.pinc := rfl
@[simp] theorem setPhase_op (i : Fin 4) (v : F) (s : State) : (setPhase i v s).op = s.op.set i { s.op.get i with phase := v } := rfl
@[simp] theorem setPhase_mixdiag (i : Fin 4) (v : F) (s : State) : (setPhase i v s).mixdiag = s.mixdiag := rfl
@[simp] theorem setPhase_cq (i : Fin 4) (v : F) (s : State) : (setPhase i v s).cq = s.cq := rfl
@[simp] theorem setPhase_refused (i : Fin 4) (v : F) (s : State) : (setPhase i v s).refused = s.refused := rfl
@[simp] theorem setPhase_cfg (i : Fin 4) (v : F) (s : State) : (setPhase i v s).cfg = s.cfg := rfl
@[simp] theorem setPhase_diags (i : Fin 4) (v : F) (s : State) : (setPhase i v s).diags = s.diags := rfl
@[simp] theorem setPhase_samples (i : Fin 4) (v : F) (s : State) : (setPhase i v s).samples = s.samples := rfl
@[simp] theorem setPhase_bufs (i : Fin 4) (v : F) (s : State) : (setPhase i v s).bufs = s.bufs := rfl
@[simp] theorem setPhase_keepAlive (i : Fin 4) (v : F) (s : State) : (setPhase i v s).keepAlive = s.keepAlive := rfl
@[simp] theorem setPhase_host (i : Fin 4) (v : F) (s : State) : (setPhase i v s).host = s.host := rfl

/-! ### setEnv -/

@[simp] theorem setEnv_key (i : Fin 4) (v : F) (s : State) : (setEnv i v s).key = s.key := rfl
@[simp] theorem setEnv_pinc (i : Fin 4) (v : F) (s : State) : (setEnv i v s).pinc = s.pinc := rfl
@[simp] theorem setEnv_op (i : Fin 4) (v : F) (s : State) : (setEnv i v s).op = s.op.set i { s.op.get i with env := v } := rfl
@[simp] theorem setEnv_mixdiag (i : Fin 4) (v : F) (s : State) : (setEnv i v s).mixdiag = s.mixdiag := rfl
@[simp] theorem setEnv_cq (i : Fin 4) (v : F) (s : State) : (setEnv i v s).cq = s.cq := rfl
@[simp] theorem setEnv_refused (i : Fin 4) (v : F) (s : State) : (setEnv i v s).refused = s.refused := rfl
@[simp] theorem setEnv_cfg (i : Fin 4) (v : F) (s : State) : (setEnv i v s).cfg = s.cfg := rfl
@[simp] theorem setEnv_diags (i : Fin 4) (v : F) (s : State) : (setEnv i v s).diags = s.diags := rfl
@[simp] theorem setEnv_samples (i : Fin 4) (v : F) (s : State) : (setEnv i v s).samples = s.samples := rfl
@[simp] theorem setEnv_bufs (i : Fin 4) (v : F) (s : State) : (setEnv i v s).bufs = s.bufs := rfl
@[simp] theorem setEnv_keepAlive (i : Fin 4) (v : F) (s : State) : (setEnv i v s).keepAlive = s.keepAlive := rfl
@[simp] theorem setEnv_host (i : Fin 4) (v : F) (s : State) : (setEnv i v s).host = s.host := rfl

/-! ### setOut -/

@[simp] theorem setOut_key (i : Fin 4) (v : F) (s : State) : (setOut i v s).key = s.key := rfl
@[simp] theorem setOut_pinc (i : Fin 4) (v : F) (s : State) : (setOut i v s).pinc = s.pinc := rfl
@[simp] theorem setOut_op (i : Fin 4) (v : F) (s : State) : (setOut i v s).op = s.op.set i { s.op.get i with out := v } := rfl
@[simp] theorem setOut_mixdiag (i : Fin 4) (v : F) (s : State) : (setOut i v s).mixdiag = s.mixdiag := rfl
@[simp] theorem setOut_cq (i : Fin 4) (v : F) (s : State) : (setOut i v s).cq = s.cq := rfl
@[simp] theorem setOut_refused (i : Fin 4) (v : F) (s : State) : (setOut i v s).refused = s.refused := rfl
@[simp] theorem setOut_cfg (i : Fin 4) (v : F) (s : State) : (setOut i v s).cfg = s.cfg := rfl
@[simp] theorem setOut_diags (i : Fin 4) (v : F) (s : State) : (setOut i v s).diags = s.diags := rfl
@[simp] theorem setOut_samples (i : Fin 4) (v : F) (s : State) : (setOut i v s).samples = s.samples := rfl
@[simp] theorem setOut_bufs (i : Fin 4) (v : F) (s : State) : (setOut i v s).bufs = s.bufs := rfl
@[simp] theorem setOut_keepAlive (i : Fin 4) (v : F) (s : State) : (setOut i v s).keepAlive = s.keepAlive := rfl
@[simp] theorem setOut_host (i : Fin 4) (v : F) (s : State) : (setOut i v s).host = s.host := rfl

/-! ### start -/

@[simp] theorem start_key (i : Fin 4) (s : State) : (start i s).key = s.key := rfl
@[simp] theorem start_pinc (i : Fin 4) (s : State) : (start i s).pinc = s.pinc := rfl
@[simp] theorem start_op (i : Fin 4) (s : State) : (start i s).op = s.op.set i { s.op.get i with env := F.one } := rfl
@[simp] theorem start_mixdiag (i : Fin 4) (s : State) : (start i s).mixdiag = s.mixdiag := rfl
@[simp] theorem start_cq (i : Fin 4) (s : State) : (start i s).cq = s.cq := rfl
@[simp] theorem start_refused (i : Fin 4) (s : State) : (start i s).refused = s.refused := rfl
@[simp] theorem start_cfg (i : Fin 4) (s : State) : (start i s).cfg = s.cfg := rfl
@[simp] theorem start_diags (i : Fin 4) (s : State) : (start i s).diags = s.diags := rfl
@[simp] theorem start_samples (i : Fin 4) (s : State) : (start i s).samples = s.samples := rfl
@[simp] theorem start_bufs (i : Fin 4) (s : State) : (start i s).bufs = s.bufs := rfl
@[simp] theorem start_keepAlive (i : Fin 4) (s : State) : (start i s).keepAlive = s.keepAlive := rfl
@[simp] theorem start_host (i : Fin 4) (s : State) : (start i s).host = s.host := rfl

/-! ### stop -/

@[simp] theorem stop_key (i : Fin 4) (s : State) : (stop i s).key = s.key := rfl
@[simp] theorem stop_pinc (i : Fin 4) (s : State) : (stop i s).pinc = s.pinc := rfl
@[simp] theorem stop_op (i : Fin 4) (s : State) : (stop i s).op = s.op.set i { s.op.get i with env := F.zero } := rfl
@[simp] theorem stop_mixdiag (i : Fin 4) (s : State) : (stop i s).mixdiag = s.mixdiag := rfl
@[simp] theorem stop_cq (i : Fin 4) (s : State) : (stop i s).cq = s.cq := rfl
@[simp] theorem stop_refused (i : Fin 4) (s : State) : (stop i s).refused = s.refused := rfl
@[simp] theorem stop_cfg (i : Fin 4) (s : State) : (stop i s).cfg = s.cfg := rfl
@[simp] theorem stop_diags (i : Fin 4) (s : State) : (stop i s).diags = s.diags := rfl
@[simp] theorem stop_samples (i : Fin 4) (s : State) : (stop i s).samples = s.samples := rfl
@[simp] theorem stop_bufs (i : Fin 4) (s : State) : (stop i s).bufs = s.bufs := rfl
@[simp] theorem stop_keepAlive (i : Fin 4) (s : State) : (stop i s).keepAlive = s.keepAlive := rfl
@[simp] theorem stop_host (i : Fin 4) (s : State) : (stop i s).host = s.host := rfl

/-! ### guardOperator -/

@[simp] theorem guardOperator_key (i : Fin 4) (o : F) (s : State) : (guardOperator i o s).key = s.key := rfl
@[simp] theorem guardOperator_pinc (i : Fin 4) (o : F) (s : State) : (guardOperator i o s).pinc = s.pinc := rfl
@[simp] theorem guardOperator_op (i : Fin 4) (o : F) (s : State) : (guardOperator i o s).op = s.op.set i { s.op.get i with diag := (s.op.get i).diag || !o.finite } := rfl
@[simp] theorem guardOperator_mixdiag (i : Fin 4) (o : F) (s : State) : (guardOperator i o s).mixdiag = s.mixdiag := rfl
@[simp] theorem guardOperator_cq (i : Fin 4) (o : F) (s : State) : (guardOperator i o s).cq = s.cq := rfl
@[simp] theorem guardOperator_refused (i : Fin 4) (o : F) (s : State) : (guardOperator i o s).refused = s.refused := rfl
@[simp] theorem guardOperator_cfg (i : Fin 4) (o : F) (s : State) : (guardOperator i o s).cfg = s.cfg := rfl
@[simp] theorem guardOperator_diags (i : Fin 4) (o : F) (s : State) : (guardOperator i o s).diags = reportOnce (!o.finite) (s.op.get i).diag (opnfRecord i s) s.diags := rfl
@[simp] theorem guardOperator_samples (i : Fin 4) (o : F) (s : State) : (guardOperator i o s).samples = s.samples := rfl
@[simp] theorem guardOperator_bufs (i : Fin 4) (o : F) (s : State) : (guardOperator i o s).bufs = s.bufs := rfl
@[simp] theorem guardOperator_keepAlive (i : Fin 4) (o : F) (s : State) : (guardOperator i o s).keepAlive = s.keepAlive := rfl
@[simp] theorem guardOperator_host (i : Fin 4) (o : F) (s : State) : (guardOperator i o s).host = s.host := rfl

/-! ### guardMix -/

@[simp] theorem guardMix_key (y : F) (s : State) : (guardMix y s).key = s.key := rfl
@[simp] theorem guardMix_pinc (y : F) (s : State) : (guardMix y s).pinc = s.pinc := rfl
@[simp] theorem guardMix_op (y : F) (s : State) : (guardMix y s).op = s.op := rfl
@[simp] theorem guardMix_mixdiag (y : F) (s : State) : (guardMix y s).mixdiag = (s.mixdiag || !y.finite) := rfl
@[simp] theorem guardMix_cq (y : F) (s : State) : (guardMix y s).cq = s.cq := rfl
@[simp] theorem guardMix_refused (y : F) (s : State) : (guardMix y s).refused = s.refused := rfl
@[simp] theorem guardMix_cfg (y : F) (s : State) : (guardMix y s).cfg = s.cfg := rfl
@[simp] theorem guardMix_diags (y : F) (s : State) : (guardMix y s).diags = reportOnce (!y.finite) s.mixdiag (.mixnf y) s.diags := rfl
@[simp] theorem guardMix_samples (y : F) (s : State) : (guardMix y s).samples = s.samples := rfl
@[simp] theorem guardMix_bufs (y : F) (s : State) : (guardMix y s).bufs = s.bufs := rfl
@[simp] theorem guardMix_keepAlive (y : F) (s : State) : (guardMix y s).keepAlive = s.keepAlive := rfl
@[simp] theorem guardMix_host (y : F) (s : State) : (guardMix y s).host = s.host := rfl

/-! ### writeBuffers -/

@[simp] theorem writeBuffers_key (k : Nat) (y : F) (s : State) : (writeBuffers k y s).key = s.key := rfl
@[simp] theorem writeBuffers_pinc (k : Nat) (y : F) (s : State) : (writeBuffers k y s).pinc = s.pinc := rfl
@[simp] theorem writeBuffers_op (k : Nat) (y : F) (s : State) : (writeBuffers k y s).op = s.op := rfl
@[simp] theorem writeBuffers_mixdiag (k : Nat) (y : F) (s : State) : (writeBuffers k y s).mixdiag = s.mixdiag := rfl
@[simp] theorem writeBuffers_cq (k : Nat) (y : F) (s : State) : (writeBuffers k y s).cq = s.cq := rfl
@[simp] theorem writeBuffers_refused (k : Nat) (y : F) (s : State) : (writeBuffers k y s).refused = s.refused := rfl
@[simp] theorem writeBuffers_cfg (k : Nat) (y : F) (s : State) : (writeBuffers k y s).cfg = s.cfg := rfl
@[simp] theorem writeBuffers_diags (k : Nat) (y : F) (s : State) : (writeBuffers k y s).diags = s.diags := rfl
@[simp] theorem writeBuffers_samples (k : Nat) (y : F) (s : State) : (writeBuffers k y s).samples = s.samples := rfl
@[simp] theorem writeBuffers_bufs (k : Nat) (y : F) (s : State) : (writeBuffers k y s).bufs = s.bufs.map (fun bus => bus.map (fun channel => channel.set k (outConv s.cfg.outConv y))) := rfl
@[simp] theorem writeBuffers_keepAlive (k : Nat) (y : F) (s : State) : (writeBuffers k y s).keepAlive = s.keepAlive := rfl
@[simp] theorem writeBuffers_host (k : Nat) (y : F) (s : State) : (writeBuffers k y s).host = s.host := rfl

/-! ### observeSample -/

@[simp] theorem observeSample_key (y : F) (s : State) : (observeSample y s).key = s.key := rfl
@[simp] theorem observeSample_pinc (y : F) (s : State) : (observeSample y s).pinc = s.pinc := rfl
@[simp] theorem observeSample_op (y : F) (s : State) : (observeSample y s).op = s.op := rfl
@[simp] theorem observeSample_mixdiag (y : F) (s : State) : (observeSample y s).mixdiag = s.mixdiag := rfl
@[simp] theorem observeSample_cq (y : F) (s : State) : (observeSample y s).cq = s.cq := rfl
@[simp] theorem observeSample_refused (y : F) (s : State) : (observeSample y s).refused = s.refused := rfl
@[simp] theorem observeSample_cfg (y : F) (s : State) : (observeSample y s).cfg = s.cfg := rfl
@[simp] theorem observeSample_diags (y : F) (s : State) : (observeSample y s).diags = s.diags := rfl
@[simp] theorem observeSample_samples (y : F) (s : State) : (observeSample y s).samples = s.samples ++ [y] := rfl
@[simp] theorem observeSample_bufs (y : F) (s : State) : (observeSample y s).bufs = s.bufs := rfl
@[simp] theorem observeSample_keepAlive (y : F) (s : State) : (observeSample y s).keepAlive = s.keepAlive := rfl
@[simp] theorem observeSample_host (y : F) (s : State) : (observeSample y s).host = s.host := rfl

/-! ### markRefused -/

@[simp] theorem markRefused_key (s : State) : (markRefused s).key = s.key := rfl
@[simp] theorem markRefused_pinc (s : State) : (markRefused s).pinc = s.pinc := rfl
@[simp] theorem markRefused_op (s : State) : (markRefused s).op = s.op := rfl
@[simp] theorem markRefused_mixdiag (s : State) : (markRefused s).mixdiag = s.mixdiag := rfl
@[simp] theorem markRefused_cq (s : State) : (markRefused s).cq = s.cq := rfl
@[simp] theorem markRefused_refused (s : State) : (markRefused s).refused = true := rfl
@[simp] theorem markRefused_cfg (s : State) : (markRefused s).cfg = s.cfg := rfl
@[simp] theorem markRefused_diags (s : State) : (markRefused s).diags = s.diags := rfl
@[simp] theorem markRefused_samples (s : State) : (markRefused s).samples = s.samples := rfl
@[simp] theorem markRefused_bufs (s : State) : (markRefused s).bufs = s.bufs := rfl
@[simp] theorem markRefused_keepAlive (s : State) : (markRefused s).keepAlive = s.keepAlive := rfl
@[simp] theorem markRefused_host (s : State) : (markRefused s).host = s.host := rfl

/-! ### push -/

@[simp] theorem push_key (w : Word) (s : State) : (push w s).key = s.key := rfl
@[simp] theorem push_pinc (w : Word) (s : State) : (push w s).pinc = s.pinc := rfl
@[simp] theorem push_op (w : Word) (s : State) : (push w s).op = s.op := rfl
@[simp] theorem push_mixdiag (w : Word) (s : State) : (push w s).mixdiag = s.mixdiag := rfl
@[simp] theorem push_cq (w : Word) (s : State) : (push w s).cq = s.cq ++ [w] := rfl
@[simp] theorem push_refused (w : Word) (s : State) : (push w s).refused = s.refused := rfl
@[simp] theorem push_cfg (w : Word) (s : State) : (push w s).cfg = s.cfg := rfl
@[simp] theorem push_diags (w : Word) (s : State) : (push w s).diags = s.diags := rfl
@[simp] theorem push_samples (w : Word) (s : State) : (push w s).samples = s.samples := rfl
@[simp] theorem push_bufs (w : Word) (s : State) : (push w s).bufs = s.bufs := rfl
@[simp] theorem push_keepAlive (w : Word) (s : State) : (push w s).keepAlive = s.keepAlive := rfl
@[simp] theorem push_host (w : Word) (s : State) : (push w s).host = s.host := rfl

end Machine

end Sys2Proof
end

