-- ==== Sys2Proof/Laws/Ops.lean ====
section
/-! SUPPORT. What each shared operation can do, said once. -/

namespace Sys2Proof.Machine

/-! ### Guards and reports -/

@[simp] theorem guarded_finite (v : F) : (guarded v).finite = true := by
  unfold guarded
  split
  · assumption
  · decide

@[simp] theorem guarded_of_finite {v : F} (h : v.finite = true) : guarded v = v := if_pos h

@[simp] theorem guarded_of_not_finite {v : F} (h : v.finite = false) : guarded v = F.zero := by
  simp [guarded, h]

/-- A report emits at most its one record, at the end of the stream. -/
theorem reportOnce_eq (raised flag : Bool) (d : Diag) (stream : List Diag) :
    reportOnce raised flag d stream = stream ++ (if raised && !flag then [d] else []) := by
  unfold reportOnce emit
  split <;> simp

/-! ### Outcomes -/

@[simp] theorem andThen_next (s : State) (f : State → Host.Outcome State Fault Refusal) : andThen (.next s) f = f s := rfl

@[simp] theorem nextOr_next (s t : State) : nextOr s (.next t) = t := rfl

/-! ### Commands -/

/-- An accepted NOTE_ON, written out. -/
theorem noteOn_eq (k : Key) (s : State) :
    noteOn k s =
      { s with
        key := k
        pinc := pitch s.cfg (keyInt k)
        op := ⟨{ s.op.x0 with env := F.one }, { s.op.x1 with env := F.one },
          { s.op.x2 with env := F.one }, { s.op.x3 with env := F.one }⟩ } := rfl

/-- An accepted NOTE_OFF, written out. -/
theorem noteOff_eq (s : State) :
    noteOff s =
      { s with
        op := ⟨{ s.op.x0 with env := F.zero }, { s.op.x1 with env := F.zero },
          { s.op.x2 with env := F.zero }, { s.op.x3 with env := F.zero }⟩ } := rfl

/-- The registers of an operator after an accepted NOTE_ON. -/
theorem noteOn_get (k : Key) (s : State) (i : Fin 4) : (noteOn k s).op.get i = { s.op.get i with env := F.one } := by
  rw [noteOn_eq]
  match i with
  | 0 | 1 | 2 | 3 => rfl

/-- The registers of an operator after an accepted NOTE_OFF. -/
theorem noteOff_get (s : State) (i : Fin 4) : (noteOff s).op.get i = { s.op.get i with env := F.zero } := by
  rw [noteOff_eq]
  match i with
  | 0 | 1 | 2 | 3 => rfl

/-- Everything a command can do. -/
theorem exec_cases (i : Instr) (s : State) :
    exec i s = .next s ∨
      (∃ k, i = .noteOn k ∧ inKeyRange s.cfg k = true ∧ exec i s = .next (noteOn k s)) ∨
      (∃ k, i = .noteOn k ∧ inKeyRange s.cfg k = false ∧ exec i s = .next (markRefused s)) ∨
      (i = .noteOff s.key ∧ exec i s = .next (noteOff s)) := by
  cases i with
  | nop => exact .inl rfl
  | unknown op => exact .inl rfl
  | noteOn k =>
    cases h : inKeyRange s.cfg k
    · exact .inr (.inr (.inl ⟨k, rfl, h, by simp [exec, execNoteOn, h]⟩))
    · exact .inr (.inl ⟨k, rfl, h, by simp [exec, execNoteOn, h]⟩)
  | noteOff k =>
    by_cases h : k = s.key
    · subst h
      exact .inr (.inr (.inr ⟨rfl, by simp [exec, execNoteOff]⟩))
    · exact .inl (by simp [exec, execNoteOff, h])

/-- Everything a command word can do. -/
theorem applyWord_cases (s : State) (w : Word) :
    applyWord s w = s ∨ (∃ k, inKeyRange s.cfg k = true ∧ applyWord s w = noteOn k s) ∨
      applyWord s w = markRefused s ∨ applyWord s w = noteOff s := by
  unfold applyWord
  rcases exec_cases (decode w) s with h | ⟨k, -, hk, h⟩ | ⟨k, -, -, h⟩ | ⟨-, h⟩ <;> rw [h]
  · exact .inl rfl
  · exact .inr (.inl ⟨k, hk, rfl⟩)
  · exact .inr (.inr (.inl rfl))
  · exact .inr (.inr (.inr rfl))

/-- A command always completes. -/
theorem exec_eq_next (w : Word) (s : State) : exec (decode w) s = .next (applyWord s w) := by
  unfold applyWord
  rcases exec_cases (decode w) s with h | ⟨k, -, -, h⟩ | ⟨k, -, -, h⟩ | ⟨-, h⟩ <;> rw [h] <;> rfl

/-! ### ADVANCE -/

/-- The registers of the advanced operator. -/
theorem advance_get_self (i : Fin 4) (m : F) (s : State) :
    (advance i m s).op.get i =
      { phase := nextPhase i s
        env := (s.op.get i).env
        out := guarded (rawOutput i m s)
        diag := (s.op.get i).diag || !(rawOutput i m s).finite } := by
  simp [advance]

/-- The other operators are as before. -/
theorem advance_get_ne {i j : Fin 4} (m : F) (s : State) (h : j ≠ i) : (advance i m s).op.get j = s.op.get j := by
  simp [advance, h]

@[simp] theorem advance_key (i : Fin 4) (m : F) (s : State) : (advance i m s).key = s.key := rfl
@[simp] theorem advance_pinc (i : Fin 4) (m : F) (s : State) : (advance i m s).pinc = s.pinc := rfl
@[simp] theorem advance_mixdiag (i : Fin 4) (m : F) (s : State) : (advance i m s).mixdiag = s.mixdiag := rfl
@[simp] theorem advance_cq (i : Fin 4) (m : F) (s : State) : (advance i m s).cq = s.cq := rfl
@[simp] theorem advance_refused (i : Fin 4) (m : F) (s : State) : (advance i m s).refused = s.refused := rfl
@[simp] theorem advance_cfg (i : Fin 4) (m : F) (s : State) : (advance i m s).cfg = s.cfg := rfl
@[simp] theorem advance_diags (i : Fin 4) (m : F) (s : State) :
    (advance i m s).diags = reportOnce (!(rawOutput i m s).finite) (s.op.get i).diag (opnfRecord i s) s.diags := rfl
@[simp] theorem advance_samples (i : Fin 4) (m : F) (s : State) : (advance i m s).samples = s.samples := rfl
@[simp] theorem advance_bufs (i : Fin 4) (m : F) (s : State) : (advance i m s).bufs = s.bufs := rfl
@[simp] theorem advance_keepAlive (i : Fin 4) (m : F) (s : State) : (advance i m s).keepAlive = s.keepAlive := rfl
@[simp] theorem advance_host (i : Fin 4) (m : F) (s : State) : (advance i m s).host = s.host := rfl

/-! ### Ticks -/

/-- A property of states that every ADVANCE of the schedule keeps, a run of the four operators keeps. -/
theorem runOperators_induct {P : State → Prop} (h : ∀ s i m, P s → P (advance i m s)) {s : State} (hs : P s) :
    P (runOperators s) := by
  simp only [runOperators, indices, List.foldl, runOperator]
  exact h _ _ _ (h _ _ _ (h _ _ _ (h _ _ _ hs)))

/-- A property of states that ADVANCE and the end of a tick keep, every tick keeps. -/
theorem ticks_induct {P : State → Prop} (ha : ∀ s i m, P s → P (advance i m s)) (hf : ∀ s k, P s → P (finishTick k s))
    (ks : List Nat) {s : State} (hs : P s) : P (ks.foldl tick s) := by
  induction ks generalizing s with
  | nil => exact hs
  | cons k ks ih =>
    rw [List.foldl_cons]
    refine ih (s := tick s k) ?_
    unfold tick
    exact hf _ k (runOperators_induct ha hs)

/-! ### Ticks, field by field -/

/-- Nothing but the operators and the stream changes in the operators' part of a tick. -/
theorem runOperators_keeps (s : State) :
    (runOperators s).key = s.key ∧ (runOperators s).pinc = s.pinc ∧ (runOperators s).mixdiag = s.mixdiag ∧
      (runOperators s).cq = s.cq ∧ (runOperators s).refused = s.refused ∧ (runOperators s).cfg = s.cfg ∧
      (runOperators s).samples = s.samples ∧ (runOperators s).bufs = s.bufs ∧ (runOperators s).keepAlive = s.keepAlive ∧
      (runOperators s).host = s.host :=
  runOperators_induct (P := fun t => t.key = s.key ∧ t.pinc = s.pinc ∧ t.mixdiag = s.mixdiag ∧ t.cq = s.cq ∧
    t.refused = s.refused ∧ t.cfg = s.cfg ∧ t.samples = s.samples ∧ t.bufs = s.bufs ∧ t.keepAlive = s.keepAlive ∧ t.host = s.host)
    (fun _ _ _ h => h) ⟨rfl, rfl, rfl, rfl, rfl, rfl, rfl, rfl, rfl, rfl⟩

@[simp] theorem runOperators_key (s : State) : (runOperators s).key = s.key := (runOperators_keeps s).1
@[simp] theorem runOperators_pinc (s : State) : (runOperators s).pinc = s.pinc := (runOperators_keeps s).2.1
@[simp] theorem runOperators_mixdiag (s : State) : (runOperators s).mixdiag = s.mixdiag := (runOperators_keeps s).2.2.1
@[simp] theorem runOperators_cq (s : State) : (runOperators s).cq = s.cq := (runOperators_keeps s).2.2.2.1
@[simp] theorem runOperators_refused (s : State) : (runOperators s).refused = s.refused := (runOperators_keeps s).2.2.2.2.1
@[simp] theorem runOperators_cfg (s : State) : (runOperators s).cfg = s.cfg := (runOperators_keeps s).2.2.2.2.2.1
@[simp] theorem runOperators_samples (s : State) : (runOperators s).samples = s.samples := (runOperators_keeps s).2.2.2.2.2.2.1
@[simp] theorem runOperators_bufs (s : State) : (runOperators s).bufs = s.bufs := (runOperators_keeps s).2.2.2.2.2.2.2.1
@[simp] theorem runOperators_keepAlive (s : State) : (runOperators s).keepAlive = s.keepAlive := (runOperators_keeps s).2.2.2.2.2.2.2.2.1
@[simp] theorem runOperators_host (s : State) : (runOperators s).host = s.host := (runOperators_keeps s).2.2.2.2.2.2.2.2.2

@[simp] theorem finishTick_key (k : Nat) (s : State) : (finishTick k s).key = s.key := rfl
@[simp] theorem finishTick_pinc (k : Nat) (s : State) : (finishTick k s).pinc = s.pinc := rfl
@[simp] theorem finishTick_op (k : Nat) (s : State) : (finishTick k s).op = s.op := rfl
@[simp] theorem finishTick_cq (k : Nat) (s : State) : (finishTick k s).cq = s.cq := rfl
@[simp] theorem finishTick_refused (k : Nat) (s : State) : (finishTick k s).refused = s.refused := rfl
@[simp] theorem finishTick_cfg (k : Nat) (s : State) : (finishTick k s).cfg = s.cfg := rfl
@[simp] theorem finishTick_keepAlive (k : Nat) (s : State) : (finishTick k s).keepAlive = s.keepAlive := rfl
@[simp] theorem finishTick_host (k : Nat) (s : State) : (finishTick k s).host = s.host := rfl
@[simp] theorem finishTick_mixdiag (k : Nat) (s : State) :
    (finishTick k s).mixdiag = (s.mixdiag || !(rawMix s).finite) := rfl
@[simp] theorem finishTick_diags (k : Nat) (s : State) :
    (finishTick k s).diags = reportOnce (!(rawMix s).finite) s.mixdiag (.mixnf (rawMix s)) s.diags := rfl
@[simp] theorem finishTick_samples (k : Nat) (s : State) : (finishTick k s).samples = s.samples ++ [mixSample s] := rfl
@[simp] theorem finishTick_bufs (k : Nat) (s : State) :
    (finishTick k s).bufs = s.bufs.map fun bus => bus.map fun channel => channel.set k (outConv s.cfg.outConv (mixSample s)) := rfl

@[simp] theorem tick_key (s : State) (k : Nat) : (tick s k).key = s.key := by simp [tick]
@[simp] theorem tick_pinc (s : State) (k : Nat) : (tick s k).pinc = s.pinc := by simp [tick]
@[simp] theorem tick_cq (s : State) (k : Nat) : (tick s k).cq = s.cq := by simp [tick]
@[simp] theorem tick_refused (s : State) (k : Nat) : (tick s k).refused = s.refused := by simp [tick]
@[simp] theorem tick_cfg (s : State) (k : Nat) : (tick s k).cfg = s.cfg := by simp [tick]
@[simp] theorem tick_keepAlive (s : State) (k : Nat) : (tick s k).keepAlive = s.keepAlive := by simp [tick]
@[simp] theorem tick_host (s : State) (k : Nat) : (tick s k).host = s.host := by simp [tick]
theorem tick_op (s : State) (k : Nat) : (tick s k).op = (runOperators s).op := by simp [tick]
theorem tick_samples (s : State) (k : Nat) : (tick s k).samples = s.samples ++ [mixSample (runOperators s)] := by simp [tick]
theorem tick_bufs (s : State) (k : Nat) :
    (tick s k).bufs = s.bufs.map fun bus => bus.map fun channel =>
      channel.set k (outConv s.cfg.outConv (mixSample (runOperators s))) := by simp [tick]

/-- The ticks change none of these. -/
theorem ticks_keep (ks : List Nat) (s : State) :
    (ks.foldl tick s).key = s.key ∧ (ks.foldl tick s).pinc = s.pinc ∧ (ks.foldl tick s).cq = s.cq ∧
      (ks.foldl tick s).refused = s.refused ∧ (ks.foldl tick s).cfg = s.cfg ∧ (ks.foldl tick s).keepAlive = s.keepAlive ∧
      (ks.foldl tick s).host = s.host := by
  induction ks generalizing s with
  | nil => simp
  | cons k ks ih => simpa using ih (tick s k)

@[simp] theorem ticks_key (ks : List Nat) (s : State) : (ks.foldl tick s).key = s.key := (ticks_keep ks s).1
@[simp] theorem ticks_pinc (ks : List Nat) (s : State) : (ks.foldl tick s).pinc = s.pinc := (ticks_keep ks s).2.1
@[simp] theorem ticks_cq (ks : List Nat) (s : State) : (ks.foldl tick s).cq = s.cq := (ticks_keep ks s).2.2.1
@[simp] theorem ticks_refused (ks : List Nat) (s : State) : (ks.foldl tick s).refused = s.refused := (ticks_keep ks s).2.2.2.1
@[simp] theorem ticks_cfg (ks : List Nat) (s : State) : (ks.foldl tick s).cfg = s.cfg := (ticks_keep ks s).2.2.2.2.1
@[simp] theorem ticks_keepAlive (ks : List Nat) (s : State) : (ks.foldl tick s).keepAlive = s.keepAlive := (ticks_keep ks s).2.2.2.2.2.1
@[simp] theorem ticks_host (ks : List Nat) (s : State) : (ks.foldl tick s).host = s.host := (ticks_keep ks s).2.2.2.2.2.2

/-- The gates a tick leaves. -/
theorem runOperators_env (s : State) (i : Fin 4) : ((runOperators s).op.get i).env = (s.op.get i).env := by
  refine runOperators_induct (P := fun t => (t.op.get i).env = (s.op.get i).env) (fun t j m h => ?_) rfl
  by_cases hij : i = j
  · subst hij
    rw [advance_get_self]
    exact h
  · rw [advance_get_ne _ _ hij]
    exact h

/-- One ADVANCE does not disturb the phase step of another operator. -/
theorem nextPhase_advance {i j : Fin 4} (m : F) (s : State) (h : i ≠ j) : nextPhase i (advance j m s) = nextPhase i s := by
  simp only [nextPhase, advance_get_ne m s h, advance_cfg, advance_pinc]

/-- The phases a tick leaves: every operator's phase has advanced once (R113, R210). -/
theorem runOperators_phase (s : State) (i : Fin 4) : ((runOperators s).op.get i).phase = nextPhase i s := by
  simp only [runOperators, indices, List.foldl, runOperator]
  match i with
  | 0 => rw [advance_get_ne _ _ (by decide), advance_get_ne _ _ (by decide), advance_get_ne _ _ (by decide), advance_get_self]
  | 1 =>
    rw [advance_get_ne _ _ (by decide), advance_get_ne _ _ (by decide), advance_get_self]
    simp only [ne_eq, Fin.reduceEq, not_false_eq_true, nextPhase_advance]
  | 2 =>
    rw [advance_get_ne _ _ (by decide), advance_get_self]
    simp only [ne_eq, Fin.reduceEq, not_false_eq_true, nextPhase_advance]
  | 3 =>
    rw [advance_get_self]
    simp only [ne_eq, Fin.reduceEq, not_false_eq_true, nextPhase_advance]

@[simp] theorem render_key (s : State) : (render s).key = s.key := by simp [render]
@[simp] theorem render_pinc (s : State) : (render s).pinc = s.pinc := by simp [render]
@[simp] theorem render_cq (s : State) : (render s).cq = s.cq := by simp [render]
@[simp] theorem render_refused (s : State) : (render s).refused = s.refused := by simp [render]
@[simp] theorem render_cfg (s : State) : (render s).cfg = s.cfg := by simp [render]
@[simp] theorem render_host (s : State) : (render s).host = s.host := by simp [render]
@[simp] theorem render_keepAlive (s : State) : (render s).keepAlive = some true := rfl

/-! ### The host's script and the step -/

/-- What the script offers: with room in CQ its first event. -/
theorem nextEvent_cons_of_enabled (e : HostEvent) (rest : List HostEvent) :
    nextEvent true (e :: rest) = some (e, rest) := by
  cases e <;> rfl

/-- A PUSH is taken only when it is enabled. -/
theorem nextEvent_push {canPush : Bool} {es rest : List HostEvent} {w : Word}
    (h : nextEvent canPush es = some (.push w, rest)) : canPush = true := by
  cases canPush with
  | true => rfl
  | false =>
    induction es generalizing rest with
    | nil => simp [nextEvent] at h
    | cons e es ih =>
      cases e with
      | reset c => simp [nextEvent] at h
      | block => simp [nextEvent] at h
      | push v =>
        simp only [nextEvent, Bool.false_eq_true, if_false, Option.map_eq_some_iff] at h
        obtain ⟨⟨e', r'⟩, h1, h2⟩ := h
        simp only [Prod.mk.injEq] at h2
        exact ih (rest := r') (by rw [h1, h2.1])

/-- A command reads and writes nothing of CQ. -/
theorem applyWord_cq (s : State) (w : Word) (q : List Word) :
    applyWord { s with cq := q } w = { applyWord s w with cq := q } := by
  unfold applyWord
  cases decode w with
  | nop => rfl
  | unknown op => rfl
  | noteOn k =>
    simp only [exec, execNoteOn, nextOr_next]
    split <;> rfl
  | noteOff k =>
    simp only [exec, execNoteOff, nextOr_next]
    split <;> rfl

/-- A property of states that commands keep and that says nothing of CQ, DRAIN keeps; and DRAIN leaves CQ empty. -/
theorem drain_induct {P : State → Prop} (hw : ∀ s w, P s → P (applyWord s w)) (hc : ∀ s q, P s → P { s with cq := q })
    {s t : State} (hs : P s) (h : drain s = .next t) : P t ∧ t.cq = [] := by
  have key : ∀ (ws : List Word) (s : State), s.cq = ws → P s → drainWords ws s = .next t → P t ∧ t.cq = [] := by
    intro ws
    induction ws with
    | nil =>
      intro s hq hs h
      cases h
      exact ⟨hs, hq⟩
    | cons w ws ih =>
      intro s _ hs h
      have hcq : (applyWord { s with cq := ws } w).cq = ws := by rw [applyWord_cq]
      simp only [drainWords, exec_eq_next, andThen_next] at h
      exact ih _ hcq (hw _ _ (hc _ _ hs)) h
  exact key s.cq s rfl hs h

/-- Everything one step can do. -/
theorem step_cases {s t : State} (h : step s = .next t) :
    t = s ∨
      (∃ w rest, nextEvent (pushEnabled s) s.host = some (.push w, rest) ∧ s.cq.length ≠ s.cfg.qdepth ∧
        t = { s with cq := s.cq ++ [w], host := rest }) ∨
      (∃ rest u, nextEvent (pushEnabled s) s.host = some (.block, rest) ∧ drain { s with host := rest } = .next u ∧ t = render u) ∨
      (∃ c rest, nextEvent (pushEnabled s) s.host = some (.reset c, rest) ∧ wfCfg c = true ∧ t = construct c rest) := by
  unfold step at h
  split at h
  · exact .inl (by cases h; rfl)
  · rename_i e rest he
    cases e with
    | push w =>
      cases h
      refine .inr (.inl ⟨w, rest, he, ?_, rfl⟩)
      have := nextEvent_push he
      simpa [pushEnabled] using this
    | block =>
      refine .inr (.inr (.inl ?_))
      simp only [takeEvent, block] at h
      cases hd : drain { s with host := rest } with
      | next u =>
        rw [hd] at h
        cases h
        exact ⟨rest, u, he, hd, rfl⟩
      | fault r => cases r
      | refused r => simp [hd, andThen] at h
    | reset c =>
      refine .inr (.inr (.inr ⟨c, rest, he, ?_⟩))
      simp only [takeEvent, resetVoice] at h
      split at h
      · rename_i hw
        cases h
        exact ⟨hw, rfl⟩
      · cases h

/-! ### Reset -/

/-- The registers of an operator after RESET. -/
theorem construct_get (c : Cfg) (host : List HostEvent) (i : Fin 4) : (construct c host).op.get i = Operator.reset := by
  match i with
  | 0 | 1 | 2 | 3 => rfl

/-- A check over the four indices holds of each. -/
theorem all_indices {P : Fin 4 → Bool} (h : indices.all P = true) (i : Fin 4) : P i = true := by
  simp only [indices, List.all_cons, List.all_nil, Bool.and_eq_true] at h
  match i with
  | 0 => exact h.1
  | 1 => exact h.2.1
  | 2 => exact h.2.2.1
  | 3 => exact h.2.2.2.1

/-- What R49 says of one weight. -/
theorem wfRouting_entry {c : Cfg} (h : wfRouting c = true) (i j : Fin 4) :
    ((c.w.get i).get j).finite = true ∧ (j < i ∨ ((c.w.get i).get j).isZero = true) := by
  have := all_indices h i
  simpa using all_indices this j

/-! ### What every step keeps -/

/-- A property of states that each part of a step but RESET keeps. -/
structure StepStable (P : State → Prop) : Prop where
  word : ∀ s w, P s → P (applyWord s w)
  queue : ∀ s q, P s → P { s with cq := q }
  host : ∀ s h, P s → P { s with host := h }
  advance : ∀ s i m, P s → P (advance i m s)
  finish : ∀ s k, P s → P (finishTick k s)
  samples : ∀ s, P s → P { s with samples := [] }
  keepAlive : ∀ s, P s → P { s with keepAlive := some true }

/-- The induction over a step: such a property holds of the next state, or the step was a RESET. -/
theorem StepStable.step {P : State → Prop} (p : StepStable P) {s t : State} (hs : P s) (h : Machine.step s = .next t) :
    P t ∨ (nextIsReset s = true ∧ ∃ c rest, wfCfg c = true ∧ t = construct c rest) := by
  rcases step_cases h with rfl | ⟨w, rest, -, -, rfl⟩ | ⟨rest, u, -, hd, rfl⟩ | ⟨c, rest, he, hw, rfl⟩
  · exact .inl hs
  · exact .inl (p.host { s with cq := s.cq ++ [w] } _ (p.queue _ _ hs))
  · have hu := (drain_induct p.word p.queue (p.host _ _ hs) hd).1
    unfold render
    exact .inl (p.keepAlive _ (ticks_induct p.advance p.finish _ (p.samples _ hu)))
  · refine .inr ⟨?_, c, rest, hw, rfl⟩
    unfold nextIsReset
    rw [he]

end Sys2Proof.Machine
end

