-- ==== Sys2Proof/Laws/PerInstr.lean ====
section
/-! SUPPORT. One law per command of the command set: what its encoding's fields hold (R90 to R93). -/

namespace Sys2Proof

/-- The OP value R91 gives a command. -/
def Instr.opValue : Instr → BitVec 8
  | .nop => 0x00
  | .noteOn _ => 0x01
  | .noteOff _ => 0x02
  | .unknown op => op

/-- The fields of a word put together from fields. -/
theorem cmdWord_fields (op rsv : BitVec 8) (key : Key) :
    opField (cmdWord op rsv key) = op ∧ rsvField (cmdWord op rsv key) = rsv ∧ keyField (cmdWord op rsv key) = key := by
  refine ⟨?_, ?_, ?_⟩ <;> refine BitVec.eq_of_getLsbD_eq fun i hi => ?_ <;>
    simp only [opField, rsvField, keyField, cmdWord, BitVec.getLsbD_extractLsb', BitVec.getLsbD_append, hi, decide_true, Bool.true_and]
  · rw [if_neg (by omega), if_neg (by omega)]
    congr 1
    omega
  · rw [if_neg (by omega), if_pos (by omega)]
    congr 1
    omega
  · rw [if_pos (by omega)]
    congr 1
    omega

namespace Laws.EncodedFields

/-- The encoding of a command carries its OP value, and zero in RSV, as R93 asks of software. -/
def Statement (i : Instr) : Prop := opField (encode i) = i.opValue ∧ rsvField (encode i) = 0

theorem nop : Statement .nop :=
  ⟨(cmdWord_fields 0x00 0 0).1, (cmdWord_fields 0x00 0 0).2.1⟩

theorem noteOn (key : Key) : Statement (.noteOn key) :=
  ⟨(cmdWord_fields 0x01 0 key).1, (cmdWord_fields 0x01 0 key).2.1⟩

theorem noteOff (key : Key) : Statement (.noteOff key) :=
  ⟨(cmdWord_fields 0x02 0 key).1, (cmdWord_fields 0x02 0 key).2.1⟩

theorem unknown (op : BitVec 8) : Statement (.unknown op) :=
  ⟨(cmdWord_fields op 0 0).1, (cmdWord_fields op 0 0).2.1⟩

end Laws.EncodedFields

end Sys2Proof
end

