-- ==== Sys2Proof/Laws/Pitch.lean ====
section
/-! SUPPORT. The octave number of a key (R180): it is monotone in the key, and it lies in the range of R16 for the keys from -12195 to 12345 (log 17). -/

namespace Sys2Proof.Machine

/-- The semitone divisor, as a pattern. -/
theorem i2f_12 : i2f 12 = .fin false ⟨0x4028000000000000, by decide⟩ := by decide +kernel

/-- The reference pitch, as a pattern. -/
theorem i2f_440 : i2f 440 = .fin false ⟨0x407B800000000000, by decide⟩ := by decide +kernel

/-- Finite values of one number of units have one place. -/
theorem place_eq_of_units {a b : F} (ha : a.finite = true) (hb : b.finite = true) (h : a.units = b.units) : a.place = b.place := by
  match a, b, ha, hb with
  | .fin s m, .fin t n, _, _ =>
    cases s <;> cases t <;> simp only [F.units] at h <;> simp only [F.place]
    · have : magUnits m = magUnits n := by omega
      have := magUnits_strictMono.injective this; omega
    · have h1 : magUnits m = 0 := by omega
      have h2 : magUnits n = 0 := by omega
      rw [magUnits_eq_zero] at h1 h2; omega
    · have h1 : magUnits m = 0 := by omega
      have h2 : magUnits n = 0 := by omega
      rw [magUnits_eq_zero] at h1 h2; omega
    · have : magUnits m = magUnits n := by omega
      have := magUnits_strictMono.injective this; omega

/-- The number of units of a converted integer. -/
theorem i2f_units {n : Int} (h : n.natAbs < 2 ^ 53) : (i2f n).finite = true ∧ (i2f n).units = n * (unitsOne : Int) := by
  rcases lt_or_ge n 0 with hn | hn
  · obtain ⟨k, rfl⟩ : ∃ k : Nat, n = -(k : Int) := ⟨n.natAbs, by omega⟩
    obtain ⟨p, hp, he⟩ := i2f_nat k (by omega)
    rw [i2f_neg (by omega), he]
    exact ⟨rfl, by simp [F.neg, F.units, hp]⟩
  · obtain ⟨k, rfl⟩ : ∃ k : Nat, n = (k : Int) := ⟨n.natAbs, by omega⟩
    obtain ⟨p, hp, he⟩ := i2f_nat k (by omega)
    rw [he]
    exact ⟨rfl, by simp [F.units, hp]⟩

/-- Conversion keeps the order of integers. -/
theorem i2f_place_mono {a b : Int} (ha : a.natAbs < 2 ^ 53) (hb : b.natAbs < 2 ^ 53) (h : a ≤ b) :
    (i2f a).place ≤ (i2f b).place := by
  obtain ⟨fa, ua⟩ := i2f_units ha
  obtain ⟨fb, ub⟩ := i2f_units hb
  have hu : (i2f a).units ≤ (i2f b).units := by
    rw [ua, ub]
    exact Int.mul_le_mul_of_nonneg_right h (by positivity)
  by_contra hc
  have h1 := units_mono_of_place fb fa (by omega)
  have h2 := place_eq_of_units fa fb (by omega)
  omega

/-- Division by the semitone divisor keeps the order of finite values. -/
theorem fdiv_semitones_mono {x y : F} (hx : x.finite = true) (hy : y.finite = true) (h : x.place ≤ y.place) :
    (fdiv x (i2f 12)).le (fdiv y (i2f 12)) = true := by
  rw [i2f_12]
  match x, y, hx, hy with
  | .fin s m, .fin t n, _, _ =>
    rw [fdiv_fin _ _ _ (by decide), fdiv_fin _ _ _ (by decide)]
    have h12 : 0 < magUnits 0x4028000000000000 := by decide +kernel
    have mono : ∀ a b : Fin infMag, a.val ≤ b.val → roundMag (magUnits a * unitsOne) (magUnits 0x4028000000000000) ≤ roundMag (magUnits b * unitsOne) (magUnits 0x4028000000000000) := by
      intro a b hab
      have := magUnits_mono hab
      exact roundMag_mono h12 h12 (by gcongr)
    have plT : ∀ r, (ofMag true r).place = -(min r infMag : Nat) := by
      intro r
      rcases Nat.lt_or_ge r infMag with h | h
      · rw [ofMag_of_lt h, Nat.min_eq_left h.le]; rfl
      · rw [ofMag_of_ge h, Nat.min_eq_right h]; rfl
    rw [F.le_iff]
    refine ⟨ofMag_ne_nan _ _, ofMag_ne_nan _ _, ?_⟩
    cases s <;> cases t <;> simp only [F.place] at h
    · have := mono m n (by omega)
      show (ofMag false _).place ≤ (ofMag false _).place
      rw [place_ofMag_false, place_ofMag_false]; simp only at this ⊢; omega
    · have hm : m.val = 0 := by omega
      have hn : n.val = 0 := by omega
      show (ofMag false _).place ≤ (ofMag true _).place
      rw [place_ofMag_false, plT]
      simp only [hm, hn, magUnits_zero, Nat.zero_mul, roundMag_zero h12]
      decide
    · show (ofMag true _).place ≤ (ofMag false _).place
      rw [place_ofMag_false, plT]; omega
    · have := mono n m (by omega)
      show (ofMag true _).place ≤ (ofMag true _).place
      rw [plT, plT]; simp only at this ⊢; omega

/-- A higher key lies no fewer octaves above key 69. -/
theorem octaves_mono {k k' : Int} (h1 : -12195 ≤ k) (h : k ≤ k') (h2 : k' ≤ 12345) : (octaves k).le (octaves k') = true := by
  unfold octaves refKey semitones
  exact fdiv_semitones_mono (i2f_units (by omega)).1 (i2f_units (by omega)).1 (i2f_place_mono (by omega) (by omega) (by omega))

/-- The octave number of such a key lies in the range of R16. -/
theorem octaves_range {k : Int} (h1 : -12195 ≤ k) (h2 : k ≤ 12345) : inExp2Range (octaves k) = true := by
  have e1 : octaves (-12195) = i2f (-1022) := by decide +kernel
  have e2 : octaves 12345 = i2f 1023 := by decide +kernel
  simp only [inExp2Range, Bool.and_eq_true]
  rw [← e1, ← e2]
  exact ⟨octaves_mono (by omega) h1 h2, octaves_mono h1 h2 (by omega)⟩

/-- `EXP2` of such an octave number is finite and positive (E2). -/
theorem exp2_octaves (id : Nat) {k : Int} (h1 : -12195 ≤ k) (h2 : k ≤ 12345) :
    (exp2 id (octaves k)).finite = true ∧ F.zero.lt (exp2 id (octaves k)) = true :=
  (exp2_ok id).e2 _ (octaves_range h1 h2)

/-- `EXP2` of such octave numbers is monotone in the key (E3). -/
theorem exp2_octaves_mono (id : Nat) {k k' : Int} (h1 : -12195 ≤ k) (h : k ≤ k') (h2 : k' ≤ 12345) :
    (exp2 id (octaves k)).le (exp2 id (octaves k')) = true :=
  (exp2_ok id).e3 _ _ (octaves_range h1 (by omega)) (octaves_range (by omega) h2) (octaves_mono h1 h h2)

end Sys2Proof.Machine
end

