-- ==== Sys2Proof/Machine/Script.lean ====
section
/-! DEFINITION. The host script syntax (R100): lines of text and the events of `State.host` they stand for. -/

namespace Sys2Proof.Machine

/-- A line of a host script (R100).
How a configuration is written is not the spec's, so what reads `<cfg>` is a parameter (DESIGN CHOICE, log 19).
R99 makes command syntax case-insensitive and R100 is silent on letter case: here RESET, PUSH and BLOCK are read in any case,
and the words of `<cfg>` reach `readCfg` in lower case (DESIGN CHOICE, log 19). -/
def readEvent (readCfg : List (List Char) → Option Cfg) (line : List Char) : Option HostEvent :=
  match lineTokens line with
  | ['r', 'e', 's', 'e', 't'] :: cfg => (readCfg cfg).map .reset
  | ['p', 'u', 's', 'h'] :: command => ((readCommand command).bind assemble).map .push
  | [['b', 'l', 'o', 'c', 'k']] => some .block
  | _ => none

/-- A script (R100): its lines in order, which fixes one interleaving of the three agents. -/
def readScript (readCfg : List (List Char) → Option Cfg) : List (List Char) → Option (List HostEvent)
  | [] => some []
  | line :: rest => (readEvent readCfg line).bind fun e => (readScript readCfg rest).map fun es => e :: es

end Sys2Proof.Machine
end

