-- ==== Sys2Proof/Tests/Slice0.lean ====
section
/-! SUPPORT. Tests: the vectors of 95_test_vectors.md that every admissible sine and power meet, and, for every obligation with hypotheses,
a concrete state and operands that meet them. Every expected value is the spec's own. -/

open Sys2Proof Sys2Proof.Machine

namespace Sys2Proof.Tests

set_option Elab.async false

/-! ### Well-formedness of commands, decoding and encoding -/

theorem test_wf_refuses_unknown_nop : (Instr.unknown 0x00).wf = false := by decide
theorem test_wf_refuses_unknown_noteOn : (Instr.unknown 0x01).wf = false := by decide
theorem test_wf_refuses_unknown_noteOff : (Instr.unknown 0x02).wf = false := by decide
theorem test_wf_accepts : Instr.nop.wf = true ∧ (Instr.noteOn (-12)).wf = true ∧ (Instr.unknown 0x03).wf = true := by decide

/-- OP 0000 0000, RSV 1111 1111, KEY 0001 0010 0011 0100 (DC2). -/
theorem test_decode_nop : decode 0b00000000111111110001001000110100 = .nop := by decide
/-- OP 0000 0001, RSV 0, KEY 1111 1111 1111 0100, −12 (DC4). -/
theorem test_decode_noteOn : decode 0b00000001000000001111111111110100 = .noteOn (-12) := by decide
/-- OP 0000 0010, RSV 0101 0101, KEY 60 (DC8). -/
theorem test_decode_noteOff : decode 0b00000010010101010000000000111100 = .noteOff 60 := by decide
/-- OP 0000 0011, RSV 0, KEY 69 (DC9). -/
theorem test_decode_unknown : decode 0b00000011000000000000000001000101 = .unknown 0x03 := by decide
/-- The words of R99. -/
theorem test_encode : encode .nop = 0x00000000 ∧ encode (.noteOn 69) = 0x01000045 ∧ encode (.noteOff 60) = 0x0200003C := by decide
theorem test_decodeTableWord : decodeTableWord 32 0x7F000045 = some (.unknown 0x7F) := by decide
/-- Program P9, line 4: a comment, upper case, a negative key. -/
theorem test_readLine : (readLine "NOTEOFF  -1   ; ignored".toList).bind assemble = some 0x0200FFFF := by decide +kernel
/-- Program P8, line 2, and the two other lines of a script. -/
theorem test_readEvent :
    readEvent (fun _ => none) "PUSH  NOTEON 128".toList = some (.push 0x01000080) ∧
      readEvent (fun _ => none) "BLOCK".toList = some .block ∧ readEvent (fun _ => some refCfg) "RESET REF".toList = some (.reset refCfg) := by
  decide +kernel

/-! ### Configurations and states the tests use -/

/-- The pattern `P = 0x3F82C5F92C5F92C6` of 95_test_vectors.md: PITCH(69) at 48 kHz. -/
def pinc69 : F := F.ofBits 0x3F82C5F92C5F92C6

/-- 1e308. -/
def e308 : F := F.ofBits 0x7FE1CCF385EBC8A0

/-- REF with a key range whose ends are octaves of 69, so that every pitch R49 asks for is exact (R188 item 2). -/
def octCfg : Cfg := { refCfg with keyMin := 9, keyMax := 129 }

/-- A fresh voice of `octCfg` with a script. -/
def fresh (host : List HostEvent) : State := construct octCfg host

/-- A voice whose operator 1 has the given registers. -/
def withOp1 (phase env : F) (diag : Bool) : State :=
  { State.reset with op := { State.reset.op with x1 := { phase := phase, env := env, out := F.zero, diag := diag } } }

/-- A voice with the given weight row 3 and outputs. -/
def withRow3 (row outs : Four F) : State :=
  { State.reset with
    cfg := { refCfg with w := { refW with x3 := row } }
    op := ⟨{ Operator.reset with out := outs.x0 }, { Operator.reset with out := outs.x1 },
      { Operator.reset with out := outs.x2 }, { Operator.reset with out := outs.x3 }⟩ }

/-- A voice with the given mix vector, scale and outputs. -/
def withMix (mix : Four F) (scale : F) (outs : Four F) : State :=
  { withRow3 refW.x3 outs with cfg := { refCfg with mix := mix, scale := scale } }

/-- X5: two carriers of 0.9 at 1e308, so that the mix overflows. -/
def overflowing (flag : Bool) : State :=
  let o := F.ofBits 0x3FECCCCCCCCCCCCD
  { withMix ⟨F.zero, e308, F.zero, e308⟩ (pow2 (-3)) ⟨o, o, o, o⟩ with mixdiag := flag }

/-! ### Arithmetic on F: expected patterns from the vectors -/

/-- M6: `0.1 + 0.2 + 0.3` in ascending order. -/
theorem test_fadd_rounds :
    fadd (fadd (F.ofBits 0x3FB999999999999A) (F.ofBits 0x3FC999999999999A)) (F.ofBits 0x3FD3333333333333) = F.ofBits 0x3FE3333333333334 := by
  decide +kernel
/-- A6: the tie 1 − 2^−54 rounds to the even pattern, 1.0. -/
theorem test_fadd_tie : fadd (F.ofBits 0x3FEFFFFFFFFFFFFF) (F.ofBits 0x3C90000000000000) = F.one := by decide +kernel
/-- A10: `4.0 * 1e308` overflows. -/
theorem test_fmul_overflows : fmul (i2f 4) e308 = .inf false := by decide +kernel
/-- R188 item 1: `440.0 / 48000.0`. -/
theorem test_fdiv_rounds : fdiv (i2f 440) (i2f 48000) = pinc69 := by decide +kernel
/-- R13 of `ffloor`: −0.5 to −1.0, and −0 kept. -/
theorem test_ffloor : ffloor (F.ofBits 0xBFE0000000000000) = F.ofBits 0xBFF0000000000000 ∧ ffloor (F.zeroOf true) = F.zeroOf true := by
  decide +kernel

/-! ### Operators, routing, mixer -/

/-- A1: S3 gives a zero, and the phase advances by P. -/
theorem test_advance_a1 :
    ((advance 1 F.zero (withOp1 F.zero F.one false)).op.x1 = { phase := pinc69, env := F.one, out := F.zero, diag := false }) := by
  decide +kernel
/-- A5: `t = 1.0` wraps to `+0`. -/
theorem test_frac_a5 : frac (fadd (F.ofBits 0x3FE8000000000000) (F.ofBits 0x3FD0000000000000)) = F.zero := by decide +kernel
/-- A12: the guard fires with the gate closed, and its record is emitted once. -/
theorem test_advance_a12 :
    let t := advance 1 .nan (withOp1 (F.ofBits 0x3FE0000000000000) F.zero false)
    t.op.x1 = { phase := F.ofBits 0x3FE04B17E4B17E4B, env := F.zero, out := F.zero, diag := true } ∧
      t.diags = [.opnf 1 (F.ofBits 0x3FE0000000000000) F.one F.zero pinc69] := by decide +kernel
/-- A9: with DIAG set no record is emitted. -/
theorem test_advance_a9 : (advance 1 (.inf false) (withOp1 (F.ofBits 0x3FE0000000000000) F.one true)).diags = [] := by decide +kernel
/-- A20: START writes the gate. -/
theorem test_start_a20 : (start 1 (withOp1 pinc69 F.zero true)).op.x1 = { phase := pinc69, env := F.one, out := F.zero, diag := true } := by
  decide +kernel
/-- A22: STOP writes the gate. -/
theorem test_stop_a22 : (stop 1 (withOp1 pinc69 F.one false)).op.x1 = { phase := pinc69, env := F.zero, out := F.zero, diag := false } := by
  decide +kernel
/-- M2: an output of `−0` gives `+0`. -/
theorem test_modin_m2 : modin 3 (withRow3 ⟨F.one, F.zero, F.zero, F.zero⟩ ⟨F.zeroOf true, F.one, F.one, F.one⟩) = F.zero := by decide +kernel
/-- M7: a partial sum of `+∞` stays. -/
theorem test_modin_m7 : modin 3 (withRow3 ⟨e308, e308, e308.neg, F.zero⟩ ⟨F.one, F.one, F.one, F.one⟩) = .inf false := by decide +kernel
/-- X1. -/
theorem test_mix_x1 :
    mixSample (withMix ⟨F.zero, F.one, F.zero, F.one⟩ (pow2 (-3))
      ⟨F.ofBits 0x3FD3333333333333, F.ofBits 0x3FE0000000000000, F.ofBits 0xBFC999999999999A, F.ofBits 0x3FD0000000000000⟩) =
        F.ofBits 0x3FB8000000000000 := by decide +kernel
/-- X9: a negative scale gives `−0`. -/
theorem test_mix_x9 :
    mixSample (withMix ⟨F.zero, F.one, F.zero, F.one⟩ (pow2 (-3)).neg ⟨F.zero, F.zero, F.zero, F.zero⟩) = F.zeroOf true := by decide +kernel
/-- X5: the guard, the flag and the record. -/
theorem test_mix_x5 :
    mixSample (overflowing false) = F.zero ∧ (mixsum (overflowing false)).mixdiag = true ∧
      (mixsum (overflowing false)).diags = [.mixnf (.inf false)] := by decide +kernel
/-- X8: no second record. -/
theorem test_mix_x8 : (mixsum (overflowing true)).diags = [] := by decide +kernel

/-! ### Commands -/

/-- V1. -/
theorem test_noteOn_v1 :
    (applyWord State.reset 0x01000045).key = 69 ∧ (applyWord State.reset 0x01000045).pinc = pinc69 ∧
      ((applyWord State.reset 0x01000045).op.get 3).env = F.one := by decide +kernel
/-- V2: an octave higher is exactly twice the increment. -/
theorem test_noteOn_v2 : (applyWord State.reset 0x01000051).pinc = F.ofBits 0x3F92C5F92C5F92C6 := by decide +kernel
/-- V4: out of range, only the mark. -/
theorem test_noteOn_v4 : applyWord State.reset 0x01000080 = { State.reset with refused := true } := by decide +kernel
/-- V5: NOTE_OFF of another key leaves the gates open. -/
theorem test_noteOff_v5 : sounding (applyWord (applyWord State.reset 0x0100003C) 0x0200003D) = true := by decide +kernel
/-- V5: NOTE_OFF of the key closes them and keeps KEY. -/
theorem test_noteOff_v5_accepted :
    idle (applyWord (applyWord State.reset 0x0100003C) 0x0200003C) = true ∧
      (applyWord (applyWord State.reset 0x0100003C) 0x0200003C).key = 60 := by decide +kernel
/-- V14. -/
theorem test_nop_v14 : applyWord State.reset 0x00000000 = State.reset := by decide +kernel
/-- V9. -/
theorem test_unknown_v9 : applyWord (applyWord State.reset 0x01000045) 0x7F000045 = applyWord State.reset 0x01000045 := by decide +kernel

/-! ### The render loop and reset -/

/-- P0: the phases of one block on a fresh voice. -/
theorem test_phases_p0 : (phaseStep State.reset 0)^[4] F.zero = F.ofBits 0x3FA2C5F92C5F92C6 := by decide +kernel
/-- RL2: the first sample of a note is `+0`, and operator 0 starts from phase 0. -/
theorem test_tick_rl2 : mixSample (runOperators (applyWord State.reset 0x01000045)) = F.zero := by decide +kernel
/-- R212, the example: NOTEON 60 and NOTEOFF 61 leave the voice sounding at key 60, with CQ empty. -/
theorem test_drain :
    (nextOr State.reset (drain { State.reset with cq := [0x0100003C, 0x0200003D] })).cq = [] ∧
      (nextOr State.reset (drain { State.reset with cq := [0x0100003C, 0x0200003D] })).key = 60 := by decide +kernel
/-- RL3: a PUSH on a full queue is held, so the BLOCK behind it goes first. -/
theorem test_push_held :
    nextEvent (pushEnabled { State.reset with cfg := { refCfg with qdepth := 2 }, cq := [0x01000045, 0x02000045] })
      [.push 0x01000051, .block] = some (.block, [.push 0x01000051]) := by decide +kernel
/-- Z1. -/
theorem test_reset_z1 : State.reset.key = 69 ∧ State.reset.pinc = pinc69 := by decide +kernel
/-- Z9: 44.1 kHz. -/
theorem test_reset_z9 : pitch { refCfg with sr := i2f 44100 } 69 = F.ofBits 0x3F846EFDCB4A6B82 := by decide +kernel
/-- Z2, Z3: weights on and above the diagonal. -/
theorem test_reset_z2_z3 :
    wfCfg { octCfg with w := { refW with x0 := ⟨F.zero, F.ofBits 0x3FE0000000000000, F.zero, F.zero⟩ } } = false ∧
      wfCfg { octCfg with w := { refW with x2 := ⟨F.zero, F.zero, F.one, F.zero⟩ } } = false := by decide +kernel
/-- Z4: `−0` on the diagonal is accepted. -/
theorem test_reset_z4 : wfCfg { octCfg with w := { refW with x1 := ⟨F.one, F.zeroOf true, F.zero, F.zero⟩ } } = true := by decide +kernel
/-- Z5, Z6, Z7, Z8. -/
theorem test_reset_z5_to_z8 :
    wfCfg { octCfg with ratio := ⟨F.one, F.one, F.one, F.one.neg⟩ } = false ∧ wfCfg { octCfg with sr := F.zero } = false ∧
      wfCfg { octCfg with sr := .nan } = false ∧ wfCfg { octCfg with amp := ⟨.inf false, F.one, F.one, F.one⟩ } = false ∧
      wfCfg { octCfg with keyMin := 70 } = false := by decide +kernel
/-- R15, R16: a function without its properties is refused. -/
theorem test_reset_functions : wfCfg { octCfg with sinturnOk := false } = false ∧ wfCfg { octCfg with exp2Ok := false } = false := by
  decide +kernel
/-- A word placed with `withFetchWord` is the one the next step applies: an empty block's worth of ticks follows it. -/
theorem test_withFetchWord :
    (State.reset.withFetchWord 32 0x01000045).cq = [0x01000045] ∧
      nextEvent true (State.reset.withFetchWord 32 0x01000045).host = some (.block, []) := by decide +kernel

/-! ### Witnesses: states and operands that meet the hypotheses of the obligations, at the boundaries of their clauses -/

/-- The largest finite value and the smallest subnormal one. -/
def maxF : F := F.ofBits 0x7FEFFFFFFFFFFFFF
def minF : F := F.ofBits 0x0000000000000001

theorem witness_PatternsStandForTheirValues :
    ((2046 : BitVec 11).toNat < 2047 ∧ F.ofBits ((0 : BitVec 1) ++ (2046 : BitVec 11) ++ (-1 : BitVec 52)) = maxF) ∧
      ((2047 : BitVec 11).toNat = 2047 ∧ F.ofBits ((1 : BitVec 1) ++ (2047 : BitVec 11) ++ (0 : BitVec 52)) = .inf true) ∧
      F.ofBits ((0 : BitVec 1) ++ (2047 : BitVec 11) ++ (1 : BitVec 52)) = .nan := by decide +kernel
theorem witness_SumIsCorrectlyRounded :
    (maxF.finite = true ∧ maxF.units + maxF.units ≠ 0 ∧ fadd maxF maxF = .inf false) ∧
      (minF.finite = true ∧ minF.units + minF.units ≠ 0 ∧ fadd minF minF = F.ofBits 2) := by decide +kernel
theorem witness_ProductIsCorrectlyRounded :
    (maxF.finite = true ∧ fmul maxF maxF.neg = .inf true) ∧ (minF.finite = true ∧ fmul minF minF = F.zero) := by decide +kernel
theorem witness_QuotientIsCorrectlyRounded :
    (maxF.finite = true ∧ minF.finite = true ∧ minF.units ≠ 0 ∧ fdiv maxF minF = .inf false) ∧
      (maxF.units ≠ 0 ∧ fdiv minF maxF = F.zero) := by decide +kernel
theorem witness_FloorIsLargestIntegralBelow : minF.neg.finite = true ∧ ffloor minF.neg = F.one.neg ∧ (F.inf true).finite = false := by
  decide +kernel
theorem witness_IntegersConvertExactly :
    (2 ^ 53 - 1 : Int).natAbs < 2 ^ 53 ∧ (-(2 ^ 53 - 1) : Int).natAbs < 2 ^ 53 ∧ (0 : Int).natAbs < 2 ^ 53 := by decide
/-- Each clause at the smallest and the largest magnitude: the two finite values meet every hypothesis, a zero those on finite values alone. -/
theorem witness_ZeroAndNonFiniteOperands :
    (maxF.finite = true ∧ maxF.units ≠ 0 ∧ fadd maxF maxF.neg = F.zero ∧ fdiv maxF.neg F.zero = .inf true) ∧
      (minF.finite = true ∧ minF.units ≠ 0 ∧ fmul minF.neg (.inf false) = .inf true) ∧
      (F.zero.finite = true ∧ fadd (.inf true) F.zero = .inf true ∧ fmul F.zero (.inf false) = .nan) := by decide +kernel
theorem witness_SinturnHasItsProperties :
    ((pow2 1020).finite = true ∧ (pow2 1020).abs.le (pow2 1020) = true) ∧ (maxF.finite = true ∧ (pow2 1020).lt maxF.abs = true) ∧
      F.nan.finite = false := by decide +kernel
theorem witness_Exp2HasItsProperties :
    ((-1022 : Int) ≤ -1022 ∧ (1023 : Int) ≤ 1023) ∧
      ((i2f (-1022)).finite = true ∧ (i2f (-1022)).le (i2f (-1022)) = true ∧ (i2f (-1022)).le (i2f 1023) = true) ∧
      (i2f 1023).le (i2f 1023) = true := by decide +kernel
theorem witness_DecodingReadsOpAndKey :
    (0x00FFFFFF : Word).toNat / 2 ^ 24 = 0 ∧ decode 0x01008000 = .noteOn (-32768) ∧ decode 0x02007FFF = .noteOff 32767 ∧
      3 ≤ (0x03000000 : Word).toNat / 2 ^ 24 ∧ 3 ≤ (0xFFFFFFFF : Word).toNat / 2 ^ 24 := by decide
theorem witness_DecodeOfEncodeIsTheCommand :
    Instr.nop.wf = true ∧ (Instr.noteOn (-32768)).wf = true ∧ (Instr.noteOff 32767).wf = true ∧ (Instr.unknown 0x03).wf = true ∧
      (Instr.unknown 0xFF).wf = true := by decide
theorem witness_AssemblerGivesEachLineItsWord :
    assemble (.noteon (-32768)) = some 0x01008000 ∧ assemble (.noteoff 32767) = some 0x02007FFF ∧
      assemble (.noteon (-32769)) = none ∧ assemble (.noteon 32768) = none ∧ assemble (.word (2 ^ 32)) = none ∧
      assemble (.word (2 ^ 32 - 1)) = some 0xFFFFFFFF := by decide
theorem witness_NoteOnStartsTheNoteOrMarksRefused :
    (State.reset.cfg.keyMin ≤ keyInt 0 ∧ keyInt 0 ≤ State.reset.cfg.keyMax) ∧
      (State.reset.cfg.keyMin ≤ keyInt 127 ∧ keyInt 127 ≤ State.reset.cfg.keyMax) ∧
      keyInt (-1) < State.reset.cfg.keyMin ∧ State.reset.cfg.keyMax < keyInt 128 := by decide
theorem witness_NoteOffStopsTheCurrentNoteOnly : (69 : Key) = State.reset.key ∧ (-1 : Key) ≠ State.reset.key := by decide
theorem witness_NopAndUnknownWordsChangeNothing :
    (0x00 : BitVec 8) ≠ 1 ∧ (0x00 : BitVec 8) ≠ 2 ∧ (0x03 : BitVec 8) ≠ 1 ∧ (0x03 : BitVec 8) ≠ 2 ∧ (0xFF : BitVec 8) ≠ 2 := by decide
theorem witness_CommandsKeepPhasesOutputsAndFlags :
    exec .nop State.reset = .next State.reset ∧ exec (.unknown 3) State.reset = .next State.reset ∧
      exec (.noteOn 69) State.reset = .next (noteOn 69 State.reset) ∧ exec (.noteOff 69) State.reset = .next (noteOff State.reset) := by
  exact ⟨rfl, rfl, rfl, rfl⟩
theorem witness_NoteStateMachineTransitions :
    gatesAgree State.reset ∧ (inKeyRange State.reset.cfg 127 = true ∧ exec (.noteOn 127) State.reset = .next (noteOn 127 State.reset)) ∧
      (inKeyRange State.reset.cfg 128 = false ∧ exec (.noteOn 128) State.reset = .next (markRefused State.reset)) ∧
      ((69 : Key) = State.reset.key ∧ exec (.noteOff 69) State.reset = .next (noteOff State.reset)) ∧
      ((60 : Key) ≠ State.reset.key ∧ exec (.noteOff 60) State.reset = .next State.reset) :=
  ⟨by unfold gatesAgree; decide +kernel, ⟨by decide, rfl⟩, ⟨by decide, rfl⟩, ⟨by decide, rfl⟩, ⟨by decide, rfl⟩⟩
/-- V6. -/
theorem witness_LastNoteHasPriority :
    inKeyRange State.reset.cfg 60 = true ∧ inKeyRange State.reset.cfg 64 = true ∧ (60 : Key) ≠ 64 ∧
      ({ State.reset with cq := [0x0100003C, 0x01000040, 0x0200003C] } : State).cq =
        [encode (.noteOn 60), encode (.noteOn 64), encode (.noteOff 60)] := by decide
theorem witness_OctavesAboveA4AreExact : refCfg.sr.finite = true ∧ F.zero.lt refCfg.sr = true ∧ 0 ≤ 1015 ∧ 1015 ≤ 1015 := by
  decide +kernel
theorem witness_PitchIsMonotone :
    refCfg.sr.finite = true ∧ F.zero.lt refCfg.sr = true ∧ (-12195 : Int) ≤ -12195 ∧ (-12195 : Int) ≤ 12345 ∧ (12345 : Int) ≤ 12345 := by
  decide +kernel
theorem witness_PitchIsFiniteAndPositive :
    wfCfg octCfg = true ∧ keysInExp2Range octCfg ∧ (octCfg.keyMin ≤ 9 ∧ 9 ≤ octCfg.keyMax) ∧ (octCfg.keyMin ≤ 129 ∧ 129 ≤ octCfg.keyMax) := by
  unfold keysInExp2Range
  decide +kernel
theorem witness_AdvanceComputesOutputGuardAndPhase :
    (rawOutput 1 F.zero (withOp1 F.zero F.one false)).finite = true ∧
      ((rawOutput 1 .nan (withOp1 F.zero F.zero true)).finite = false ∧ ((withOp1 F.zero F.zero true).op.get 1).diag = true) ∧
      ((rawOutput 1 (.inf true) (withOp1 F.zero F.one false)).finite = false ∧ ((withOp1 F.zero F.one false).op.get 1).diag = false) := by
  decide +kernel
/-- A6 and A16: the largest phase, and the largest increment. -/
theorem witness_AdvanceKeepsPhaseInUnitInterval :
    inUnit ((withOp1 (F.ofBits 0x3FEFFFFFFFFFFFFF) F.one false).op.get 1).phase ∧
      (fmul F.one pinc69).finite = true ∧ F.zero.le (fmul F.one pinc69) = true ∧
      (fmul (F.ofBits 0x7E37E43C8800759C) pinc69).finite = true ∧ F.zero.le (fmul F.zero pinc69) = true := by
  unfold inUnit
  decide +kernel
/-- The same state meets the hypotheses of GuardFiresExactlyOnNanSine, OutputIsBoundedByAmplitude and ClosedGateOutputsZero. -/
theorem witness_GuardFiresExactlyOnNanSine :
    ((State.reset.cfg.amp.get 1).finite = true ∧ ((withOp1 F.zero F.zero false).op.get 1).env = F.zero ∧
        ((withOp1 F.zero F.one false).op.get 1).env = F.one) ∧
      (F.nan.finite = false ∧ (F.inf true).finite = false) ∧
      (inUnit ((withOp1 (F.ofBits 0x3FEFFFFFFFFFFFFF) F.zero false).op.get 1).phase ∧
        (fmul (i2f 4) e308).finite = false ∧ (fmul (i2f 4) .nan).finite = false) := by
  unfold inUnit
  decide +kernel
theorem witness_OutputIsBoundedByAmplitude :
    (State.reset.cfg.amp.get 1).finite = true ∧ (((withOp1 F.zero F.one false).op.get 1).env = F.zero ∨
      ((withOp1 F.zero F.one false).op.get 1).env = F.one) := by decide +kernel
theorem witness_ClosedGateOutputsZero :
    ((withOp1 F.zero F.zero false).cfg.amp.get 1).finite = true ∧ ((withOp1 F.zero F.zero false).op.get 1).env = F.zero := by decide +kernel
theorem witness_ModinReadsOnlyEarlierOperators : wfRouting refCfg = true ∧ outputsFinite State.reset := by
  unfold outputsFinite
  decide +kernel
theorem witness_MixsumScalesTheSumAndGuards :
    (rawMix State.reset).finite = true ∧ ((rawMix (overflowing true)).finite = false ∧ (overflowing true).mixdiag = true) ∧
      ((rawMix (overflowing false)).finite = false ∧ (overflowing false).mixdiag = false) := by decide +kernel
theorem witness_BlockSamplesAreItsTicks :
    drain State.reset = .next State.reset ∧ block State.reset = .next (render State.reset) ∧ 0 < State.reset.cfg.blockLen ∧
      3 < State.reset.cfg.blockLen := ⟨rfl, rfl, by decide, by decide⟩
/-- RL5: two buses, of one and two channels. -/
theorem witness_BlockBroadcastsItsSamples :
    bufsShaped State.reset ∧ block State.reset = .next (render State.reset) ∧ bufsShaped (construct { octCfg with nch := [1, 2] } []) :=
  ⟨by unfold bufsShaped; decide +kernel, rfl, by unfold bufsShaped; decide +kernel⟩
theorem witness_IdleVoiceRendersSilence :
    wfCfg (fresh []).cfg = true ∧ (∀ i, ((fresh []).op.get i).env = F.zero) ∧ (fresh []).cq = [] ∧ (fresh []).cfg.scale.sign = false := by
  decide +kernel
theorem witness_OutputsAreNeverRead :
    sameButOutputs State.reset { State.reset with samples := [F.one], bufs := [], diags := [.mixnf .nan], keepAlive := some true } ∧
      block State.reset = .next (render State.reset) ∧
      block { State.reset with samples := [F.one], bufs := [], diags := [.mixnf .nan], keepAlive := some true } =
        .next (render { State.reset with samples := [F.one], bufs := [], diags := [.mixnf .nan], keepAlive := some true }) :=
  ⟨rfl, rfl, rfl⟩
theorem witness_HeldPushCompletesAfterTheNextBlock :
    let s : State := { State.reset with
      cfg := { refCfg with qdepth := 1 }, cq := [0x01000045], host := [.push 0x01000051, .block] }
    s.host = .push 0x01000051 :: .block :: [] ∧ s.cq.length = s.cfg.qdepth ∧ 1 ≤ s.cfg.qdepth := by decide
theorem witness_BlockStepRunsTheDecodedCommand :
    (State.reset.withFetchWord 32 0x01000045).host = .block :: [] ∧ (State.reset.withFetchWord 32 0x01000045).cq = [0x01000045] := by
  decide
theorem witness_PushedCommandActsAtTheNextBlock :
    (Instr.noteOn 69).wf = true ∧ (fresh []).cq = [] ∧ 1 ≤ (fresh []).cfg.qdepth ∧
      (fresh [.push 0x01000045, .block]).host = .push (encode (.noteOn 69)) :: .block :: [] := by decide
theorem witness_ResetConstructsAFreshVoice : wfCfg { octCfg with blockLen := 0 } = false ∧ wfCfg octCfg = true := by decide +kernel
theorem witness_ResetForgetsTheOldVoice : State.reset.host = ({ State.reset with refused := true, cq := [0] } : State).host := by decide
theorem witness_StepTakesTheHostsFirstEvent :
    (fresh []).host = [] ∧ (fresh [.reset octCfg]).host = .reset octCfg :: [] ∧ (fresh [.block]).host = .block :: [] ∧
      (fresh [.push 0]).host = .push 0 :: [] ∧ (fresh [.push 0]).cq.length < (fresh [.push 0]).cfg.qdepth ∧
      ({ fresh [.push 0] with cq := [0, 0, 0, 0, 0, 0, 0] } : State).cq.length < (fresh [.push 0]).cfg.qdepth :=
  ⟨rfl, rfl, rfl, rfl, by decide, by decide⟩
/-- R49, check by check: SR, W, MIX, AMP, RATIO and SCALE (Z2 to Z7 are among the tests above). -/
theorem test_wfCfg_numbers :
    wfCfg octCfg = true ∧ wfCfg { octCfg with sr := .inf false } = false ∧ wfCfg { octCfg with sr := F.one.neg } = false ∧
      wfCfg { octCfg with w := { refW with x3 := ⟨F.zero, F.zero, .nan, F.zero⟩ } } = false ∧
      wfCfg { octCfg with w := { refW with x0 := ⟨F.zero, F.zero, F.zero, minF⟩ } } = false ∧
      wfCfg { octCfg with mix := ⟨F.zero, F.one, F.zero, .nan⟩ } = false ∧
      wfCfg { octCfg with amp := ⟨F.one, F.one, F.one, .inf true⟩ } = false ∧
      wfCfg { octCfg with ratio := ⟨F.one, F.one, F.one, minF.neg⟩ } = false ∧
      wfCfg { octCfg with ratio := ⟨.inf false, F.one, F.one, F.one⟩ } = false ∧ wfCfg { octCfg with scale := .inf true } = false := by
  decide +kernel
/-- R49, check by check: the key range and the pitches at its ends, which underflow, overflow, or overflow with RATIO. -/
theorem test_wfCfg_keys :
    wfCfg { octCfg with keyMin := 70 } = false ∧ wfCfg { octCfg with keyMax := 68 } = false ∧
      wfCfg { octCfg with keyMin := -32769 } = false ∧ wfCfg { octCfg with keyMax := 32768 } = false ∧
      wfCfg { octCfg with keyMin := -12195, sr := maxF } = false ∧ wfCfg { octCfg with sr := minF } = false ∧
      wfCfg { octCfg with sr := F.one, ratio := ⟨F.one, F.one, F.one, maxF⟩ } = false := by decide +kernel
/-- R49, check by check: the sizes (the flags are among the tests above). -/
theorem test_wfCfg_sizes :
    wfCfg { octCfg with qdepth := 0 } = false ∧ wfCfg { octCfg with blockLen := 0 } = false ∧ wfCfg { octCfg with nch := [] } = false ∧
      wfCfg { octCfg with nch := [1, 0] } = false := by decide +kernel
/-- Z6 as a step: the RESET is refused. -/
theorem witness_OnlyIllFormedResetsAreRefused :
    step (fresh [.reset { octCfg with sr := F.zero }]) = .refused .badConfig := by
  have h : wfCfg { octCfg with sr := F.zero } = false := by decide +kernel
  simp [step, fresh, construct, nextEvent, takeEvent, resetVoice, h]
/-- The steps that are no RESET: none enabled, PUSH, BLOCK. -/
theorem witness_ConfigurationIsFixedBetweenResets :
    (nextIsReset (fresh []) = false ∧ step (fresh []) = .next (fresh [])) ∧
      (nextIsReset (fresh [.push 0]) = false ∧ step (fresh [.push 0]) = .next { fresh [] with cq := [0] }) ∧
      (nextIsReset (fresh [.block]) = false ∧ step (fresh [.block]) = .next (render (fresh []))) :=
  ⟨⟨rfl, rfl⟩, ⟨rfl, rfl⟩, ⟨rfl, rfl⟩⟩
theorem witness_FlagsAreStickyBetweenResets :
    nextIsReset { overflowing true with refused := true } = false ∧
      step { overflowing true with refused := true } = .next { overflowing true with refused := true } ∧ (overflowing true).mixdiag = true ∧
      ((withOp1 F.zero F.zero true).op.get 1).diag = true := ⟨rfl, rfl, rfl, rfl⟩
/-- One voice meets the five invariants of the next statements, and steps. -/
theorem fresh_phaseOk (host : List HostEvent) : phaseOk (fresh host) := by
  have hw : wfCfg octCfg = true := by decide +kernel
  have hg : gatesAgree (construct octCfg []) := by unfold gatesAgree; decide +kernel
  have hp : phasesInUnit (construct octCfg []) := by unfold phasesInUnit inUnit; decide +kernel
  have hk : inKeyRange octCfg 69 = true := by decide
  exact ⟨⟨hw, hk, rfl, hg⟩, fun _ => hp⟩
theorem witness_StepKeepsVoiceState : voiceOk (fresh [.block]) ∧ step (fresh [.block]) = .next (render (fresh [])) :=
  ⟨(fresh_phaseOk _).1, rfl⟩
theorem witness_StepKeepsPhasesInUnitInterval : phaseOk (fresh [.block]) ∧ step (fresh [.block]) = .next (render (fresh [])) :=
  ⟨fresh_phaseOk _, rfl⟩
theorem witness_StepKeepsOutputsFinite :
    (outputsFinite (fresh [.block]) ∧ samplesFinite (fresh [.block])) ∧ step (fresh [.block]) = .next (render (fresh [])) :=
  ⟨⟨by unfold outputsFinite; decide +kernel, by unfold samplesFinite; decide +kernel⟩, rfl⟩
theorem witness_StepKeepsQueueBounded : queueBounded (fresh [.push 0]) ∧ step (fresh [.push 0]) = .next { fresh [] with cq := [0] } :=
  ⟨by unfold queueBounded; decide, rfl⟩
theorem witness_StepKeepsOneRecordPerFlag :
    streamMatchesFlags (fresh [.block]) ∧ step (fresh [.block]) = .next (render (fresh [])) ∧
      streamMatchesFlags (mixsum (overflowing false)) :=
  ⟨by unfold streamMatchesFlags; decide +kernel, rfl, by unfold streamMatchesFlags; decide +kernel⟩
theorem witness_StepKeepsBufferShape : bufsShaped (fresh [.block]) ∧ step (fresh [.block]) = .next (render (fresh [])) :=
  ⟨by unfold bufsShaped; decide +kernel, rfl⟩

end Sys2Proof.Tests
end

/-! # The value set F and the step (00_scope.md sections 5.1 to 5.3)

Rules about the primitives of F that the frozen laws leave open, then the statements they settle. -/

namespace Sys2Proof

/-! ### Patterns and their values (R73) -/

/-- The units of a finite value: its magnitude with its sign. -/
theorem units_fin (s : Bool) (m : Fin infMag) :
    (F.fin s m).units = if s = true then -(magUnits m : Int) else magUnits m := by
  cases s <;> rfl

@[simp] theorem natAbs_units_fin (s : Bool) (m : Fin infMag) : (F.fin s m).units.natAbs = magUnits m := by
  cases s <;> simp [units_fin]

theorem units_fin_eq_zero {s : Bool} {m : Fin infMag} : (F.fin s m).units = 0 ↔ m.val = 0 := by
  rw [← Int.natAbs_eq_zero, natAbs_units_fin, magUnits_eq_zero]

/-- The magnitude of the pattern with exponent field `ex` and fraction field `fr`. -/
theorem magUnits_fields {ex fr : Nat} (hfr : fr < 2 ^ 52) :
    magUnits (ex * 2 ^ 52 + fr) = if ex = 0 then fr else (2 ^ 52 + fr) * 2 ^ (ex - 1) := by
  have hd : (ex * 2 ^ 52 + fr) / 2 ^ 52 = ex := by omega
  have hr : (ex * 2 ^ 52 + fr) % 2 ^ 52 = fr := by omega
  unfold magUnits
  rw [show fracMod = 2 ^ 52 from rfl, hd, hr]
  split
  · omega
  · rfl

/-- Bits 62..0 of the pattern with the given fields. -/
theorem fields_toNat_mod (sgn : BitVec 1) (ex : BitVec 11) (fr : BitVec 52) :
    (sgn ++ ex ++ fr).toNat % 2 ^ 63 = ex.toNat * 2 ^ 52 + fr.toNat := by
  have hex := ex.isLt
  have hfr := fr.isLt
  rw [BitVec.toNat_append, BitVec.toNat_append, ← Nat.shiftLeft_add_eq_or_of_lt hfr, ← Nat.shiftLeft_add_eq_or_of_lt hex,
    Nat.shiftLeft_eq, Nat.shiftLeft_eq]
  omega

/-- Bit 63 of the pattern with the given fields. -/
theorem fields_msb (sgn : BitVec 1) (ex : BitVec 11) (fr : BitVec 52) :
    (sgn ++ ex ++ fr).msb = decide (sgn = 1) := by
  have hs : sgn.msb = decide (sgn = 1) := by revert sgn; decide
  rw [BitVec.msb_append, BitVec.msb_append, ← hs]
  rfl

/-- The value of the pattern with the given fields. -/
theorem ofBits_fields (sgn : BitVec 1) (ex : BitVec 11) (fr : BitVec 52) :
    F.ofBits (sgn ++ ex ++ fr) =
      if h : ex.toNat * 2 ^ 52 + fr.toNat < infMag then .fin (decide (sgn = 1)) ⟨ex.toNat * 2 ^ 52 + fr.toNat, h⟩
      else if ex.toNat * 2 ^ 52 + fr.toNat = infMag then .inf (decide (sgn = 1)) else .nan := by
  have hmag := fields_toNat_mod sgn ex fr
  have hmsb := fields_msb sgn ex fr
  simp only [F.ofBits, hmag, hmsb]

/-- Settles O1: the exponent field alone decides whether a pattern lies below `infMag`, and the fraction which one lies on it. -/
theorem patternsStandForTheirValues : Obligations.PatternsStandForTheirValues := by
  intro sgn ex fr
  have hfr := fr.isLt
  refine ⟨fun hex => ?_, fun hex => ?_⟩
  · have hlt : ex.toNat * 2 ^ 52 + fr.toNat < infMag := by unfold infMag; omega
    rw [ofBits_fields, dif_pos hlt]
    exact ⟨rfl, by simp only [units_fin, magUnits_fields hfr, decide_eq_true_eq], rfl⟩
  · have hge : ¬ ex.toNat * 2 ^ 52 + fr.toNat < infMag := by unfold infMag; omega
    have hfr0 : ex.toNat * 2 ^ 52 + fr.toNat = infMag ↔ fr = 0 := by
      rw [← BitVec.toNat_inj, hex, infMag]
      simp
    simp only [ofBits_fields, dif_neg hge, hfr0]

/-! ### Rounding to nearest (R13) -/

/-- Of two integers the lower is no farther from `n` exactly when `n` is not above their midpoint. -/
theorem abs_lower_sub_le_iff {a b n : Int} (h : a < b) : |a - n| ≤ |b - n| ↔ 2 * n ≤ a + b := by
  rcases abs_cases (a - n) with ⟨h1, _⟩ | ⟨h1, _⟩ <;> rcases abs_cases (b - n) with ⟨h2, _⟩ | ⟨h2, _⟩ <;> omega

/-- Of two integers the upper is no farther from `n` exactly when `n` is not below their midpoint. -/
theorem abs_upper_sub_le_iff {a b n : Int} (h : a < b) : |b - n| ≤ |a - n| ↔ a + b ≤ 2 * n := by
  rcases abs_cases (a - n) with ⟨h1, _⟩ | ⟨h1, _⟩ <;> rcases abs_cases (b - n) with ⟨h2, _⟩ | ⟨h2, _⟩ <;> omega

/-- `roundMag` returns the nearest pattern, on a tie the even one.
Between two neighbouring patterns this is `roundMag_between`; a pattern farther out is farther away. -/
theorem nearestPattern_roundMag (n : Nat) {d : Nat} (hd : 0 < d) : Machine.nearestPattern n d (roundMag n d) := by
  obtain ⟨hup, hupTie, hlow⟩ := roundMag_between (n := n) hd
  generalize roundMag n d = p at *
  intro q
  rcases Nat.lt_trichotomy q p with hq | rfl | hq
  · obtain ⟨hle, htie⟩ := hlow (p - 1) (by omega)
    rw [Nat.sub_add_cancel (by omega : 1 ≤ p)] at hle htie
    have hqp : magUnits q * d < magUnits p * d := Nat.mul_lt_mul_of_pos_right (magUnits_strictMono hq) hd
    have hq1 : magUnits q * d ≤ magUnits (p - 1) * d := Nat.mul_le_mul_right d (magUnits_mono (by omega))
    rw [Nat.add_mul] at hle htie
    zify at hqp hq1 hle
    refine ⟨(abs_upper_sub_le_iff hqp).2 (by omega), fun _ heq => htie ?_ (by omega)⟩
    have := (abs_lower_sub_le_iff hqp).1 heq.ge
    zify
    omega
  · exact ⟨le_rfl, fun hne => absurd rfl hne⟩
  · have hpq : magUnits p * d < magUnits q * d := Nat.mul_lt_mul_of_pos_right (magUnits_strictMono hq) hd
    have hq1 : magUnits (p + 1) * d ≤ magUnits q * d := Nat.mul_le_mul_right d (magUnits_mono hq)
    rw [Nat.add_mul] at hup hupTie
    zify at hpq hq1 hup
    refine ⟨(abs_lower_sub_le_iff hpq).2 (by omega), fun _ heq => hupTie ?_⟩
    have := (abs_upper_sub_le_iff hpq).1 heq.ge
    zify
    omega

/-- What a rounded pattern becomes: below `infMag` the finite value of that sign and magnitude, else the infinity of that sign. -/
theorem ofMag_spec (s : Bool) (p : Nat) :
    (p < infMag → (ofMag s p).finite = true ∧ (ofMag s p).sign = s ∧ (ofMag s p).units.natAbs = magUnits p) ∧
      (infMag ≤ p → ofMag s p = .inf s) := by
  refine ⟨fun h => ?_, ofMag_of_ge⟩
  rw [ofMag_of_lt h]
  exact ⟨rfl, rfl, natAbs_units_fin _ _⟩

/-- Rounding a whole number of units, by its sign and its magnitude pattern. -/
theorem ofUnits_eq (z : Int) : ofUnits z = ofMag (decide (z < 0)) (roundMag z.natAbs 1) := roundTo_eq _ _ _

/-- Settles O2: the exact sum is a whole number of units, rounded once. -/
theorem sumIsCorrectlyRounded : Obligations.SumIsCorrectlyRounded := by
  intro a b ha hb hne
  match a, b, ha, hb with
  | .fin s m, .fin t n, _, _ =>
    rw [fadd_fin, if_neg hne, ofUnits_eq]
    refine ⟨_, nearestPattern_roundMag _ Nat.one_pos, fun hlt => ?_, ofMag_of_ge⟩
    rw [ofMag_of_lt hlt]
    exact ⟨rfl, by simp only [units_fin, decide_eq_true_eq]⟩

/-- Settles O3: the exact product is a fraction of units, rounded once. -/
theorem productIsCorrectlyRounded : Obligations.ProductIsCorrectlyRounded := by
  intro a b ha hb
  match a, b, ha, hb with
  | .fin s m, .fin t n, _, _ =>
    rw [fmul_fin, natAbs_units_fin, natAbs_units_fin]
    exact ⟨_, nearestPattern_roundMag _ unitsOne_pos, ofMag_spec _ _⟩

/-- Settles O4: a divisor of nonzero units has a nonzero magnitude, so the quotient is rounded like a product. -/
theorem quotientIsCorrectlyRounded : Obligations.QuotientIsCorrectlyRounded := by
  intro a b ha hb hne
  match a, b, ha, hb with
  | .fin s m, .fin t n, _, _ =>
    have hn : n.val ≠ 0 := fun h => hne (units_fin_eq_zero.2 h)
    have hpos : 0 < magUnits n := Nat.pos_of_ne_zero fun h => hn (magUnits_eq_zero.1 h)
    rw [fdiv_fin _ _ _ hn, natAbs_units_fin, natAbs_units_fin]
    exact ⟨_, nearestPattern_roundMag _ hpos, ofMag_spec _ _⟩

/-! ### Integral values (R13) -/

/-- A magnitude of 2^52 and above is integral: 53 significant bits leave no fraction. -/
theorem magUnits_integral_or_small (p : Nat) : unitsOne ∣ magUnits p ∨ magUnits p < 2 ^ 52 * unitsOne := by
  obtain ⟨e, m, -, hm, -, hu⟩ := pattern_split p
  have hone : unitsOne = 2 ^ 1074 := by unfold unitsOne; rfl
  rw [hu, hone]
  generalize 1074 = N
  rcases Nat.lt_or_ge e N with he | he
  · right
    calc m * 2 ^ e < 2 ^ 53 * 2 ^ e := Nat.mul_lt_mul_of_pos_right hm (Nat.two_pow_pos e)
      _ = 2 ^ 52 * 2 ^ (e + 1) := by ring
      _ ≤ 2 ^ 52 * 2 ^ N := Nat.mul_le_mul_left _ (Nat.pow_le_pow_right (by omega) he)
  · exact .inl (Dvd.dvd.mul_left (Nat.pow_dvd_pow 2 he) m)

/-- The integral part of a finite value has at most 53 bits, or the value is integral itself. -/
theorem units_integral_or_floor_small {a : F} (ha : a.finite = true) :
    (unitsOne : Int) ∣ a.units ∨ (a.units / (unitsOne : Int)).natAbs < 2 ^ 53 := by
  match a, ha with
  | .fin s m, _ =>
    have hpos : (0 : Int) < unitsOne := by exact_mod_cast unitsOne_pos
    have habs := natAbs_units_fin s m
    generalize (F.fin s m).units = u at *
    rcases magUnits_integral_or_small m with h | h
    · exact .inl (Int.natCast_dvd.2 (habs ▸ h))
    · right
      rw [← habs] at h
      zify at h
      obtain ⟨hlo, hhi⟩ := abs_lt.1 h
      have h1 : -2 ^ 52 ≤ u / (unitsOne : Int) := (Int.le_ediv_iff_mul_le hpos).2 (by rw [Int.neg_mul]; exact hlo.le)
      have h2 : u / (unitsOne : Int) < 2 ^ 52 := (Int.ediv_lt_iff_lt_mul hpos).2 hhi
      omega

/-- The floor is exact: of a finite value it is the whole number of units below it that makes an integer. -/
theorem ffloor_units {a : F} (ha : a.finite = true) :
    (ffloor a).finite = true ∧ (ffloor a).units = a.units / (unitsOne : Int) * (unitsOne : Int) := by
  match a, ha with
  | .fin s m, _ =>
    simp only [ffloor]
    split
    · rename_i h0
      rw [h0, Int.zero_mul]
      exact ⟨rfl, units_fin_eq_zero.2 rfl⟩
    · rename_i h0
      rcases units_integral_or_floor_small (a := .fin s m) rfl with h | h
      · have hu : (F.fin s m).units ≠ 0 := fun hz => h0 (by rw [hz, Int.zero_ediv])
        rw [Int.ediv_mul_cancel h, ofUnits_units rfl hu]
        exact ⟨rfl, rfl⟩
      · exact Machine.i2f_units h

/-- The floor keeps a zero with its sign. -/
theorem ffloor_zeroOf (s : Bool) : ffloor (F.zeroOf s) = F.zeroOf s := by
  have hz : (F.zeroOf s).units = 0 := units_fin_eq_zero.2 rfl
  simp only [F.zeroOf] at hz
  simp only [F.zeroOf, ffloor, hz, Int.zero_ediv, if_true]

/-- Settles O5: the floor is exact, so the bounds are those of integer division. -/
theorem floorIsLargestIntegralBelow : Obligations.FloorIsLargestIntegralBelow := by
  refine ⟨fun a ha => ?_, ffloor_zeroOf, fun a ha => ?_⟩
  · have hpos : (0 : Int) < unitsOne := by exact_mod_cast unitsOne_pos
    obtain ⟨hfin, hu⟩ := ffloor_units ha
    rw [hu]
    refine ⟨hfin, Int.mul_emod_left _ _, Int.ediv_mul_le _ hpos.ne', ?_⟩
    rw [← add_one_mul]
    exact Int.lt_ediv_add_one_mul_self _ hpos
  · match a, ha with
    | .nan, _ => rfl
    | .inf _, _ => rfl

/-- A converted integer is never `−0` (R188 item 1). -/
theorem i2f_ne_negZero (n : Int) : i2f n ≠ F.zeroOf true := by
  rcases eq_or_ne n 0 with rfl | hn
  · decide +kernel
  · have hone : (unitsOne : Int) ≠ 0 := by exact_mod_cast unitsOne_pos.ne'
    exact ofUnits_ne_zeroOf (Int.mul_ne_zero hn hone) true

/-- Settles O6: 53 bits are always representable, and no rounding of a nonzero integer is a zero. -/
theorem integersConvertExactly : Obligations.IntegersConvertExactly := by
  intro n hn
  obtain ⟨hfin, hu⟩ := Machine.i2f_units hn
  exact ⟨hfin, hu, i2f_ne_negZero n⟩

/-! ### Zeros and non-finite operands (R13, log 2) -/

/-- A finite value and its negation cancel to `+0`. -/
theorem fadd_neg {x : F} (hx : x.finite = true) : fadd x x.neg = F.zero := by
  match x, hx with
  | .fin s m, _ =>
    have h0 : (F.fin s m).units + (F.fin (!s) m).units = 0 := by cases s <;> simp [units_fin]
    have hs : (s && !s) = false := by cases s <;> rfl
    rw [F.neg, fadd_fin, if_pos h0, hs]
    rfl

/-- A zero plus a zero is `+0` unless both are `−0`. -/
theorem fadd_zeroOf_zeroOf (s t : Bool) : fadd (F.zeroOf s) (F.zeroOf t) = F.zeroOf (s && t) := by
  have h0 : (F.zeroOf s).units + (F.zeroOf t).units = 0 := by cases s <;> cases t <;> decide
  unfold F.zeroOf at *
  rw [fadd_fin, if_pos h0]
  rfl

/-- NaN as an operand gives NaN. -/
theorem arith_nan (x : F) :
    fadd .nan x = .nan ∧ fadd x .nan = .nan ∧ fmul .nan x = .nan ∧ fmul x .nan = .nan ∧ fdiv .nan x = .nan ∧ fdiv x .nan = .nan := by
  cases x <;> exact ⟨rfl, rfl, rfl, rfl, rfl, rfl⟩

/-- An infinity and a finite nonzero number, and such a number over a zero: an infinity with the exclusive-or sign. -/
theorem fmul_inf_fdiv_zeroOf (s : Bool) {x : F} (hx : x.finite = true) (h0 : x.units ≠ 0) :
    fmul (.inf s) x = .inf (s != x.sign) ∧ fmul x (.inf s) = .inf (x.sign != s) ∧ fdiv x (F.zeroOf s) = .inf (x.sign != s) := by
  match x, hx with
  | .fin t m, _ =>
    have hm : m.val ≠ 0 := fun h => h0 (units_fin_eq_zero.2 h)
    exact ⟨if_neg hm, if_neg hm, by simp [fdiv, F.zeroOf, F.sign, hm]⟩

/-- Settles O7: the zero rules of R13, then IEEE 754's for an infinity beside a finite operand, two infinities, and NaN. -/
theorem zeroAndNonFiniteOperands : Obligations.ZeroAndNonFiniteOperands := by
  refine ⟨⟨fadd_zeroOf_zeroOf false true, fadd_zeroOf_zeroOf true false, fun s => ?_, fun x hx _ => fadd_neg hx⟩,
    fun s x hx => ⟨zeroOf_fmul hx, fmul_zeroOf hx⟩, fun s x hx => ?_, fun s => ?_, fun s t => ⟨rfl, rfl, rfl⟩,
    fun s x hx h0 => fmul_inf_fdiv_zeroOf s hx h0, fun s x hx => ?_, fun s t => ⟨rfl, rfl⟩, arith_nan⟩
  · rw [fadd_zeroOf_zeroOf, Bool.and_self]
  · match x, hx with
    | .fin _ _, _ => exact ⟨rfl, rfl⟩
  · cases s <;> decide
  · match x, hx with
    | .fin _ _, _ => exact ⟨rfl, rfl⟩

/-! ### SINTURN and EXP2 (R15, R16) -/

/-- Settles O8: what the machine applies is the named function itself. -/
theorem sinturnHasItsProperties : Obligations.SinturnHasItsProperties := by
  intro id
  obtain ⟨s1, s1b, s2, s3⟩ := sinturn_ok id
  exact ⟨s1, s1b, s2, s3⟩

/-- A converted integer equals that integer. -/
theorem toInt?_i2f {n : Int} (h : n.natAbs < 2 ^ 53) : (i2f n).toInt? = some n := by
  obtain ⟨hfin, hu⟩ := Machine.i2f_units h
  have hone : (unitsOne : Int) ≠ 0 := by exact_mod_cast unitsOne_pos.ne'
  simp [F.toInt?, hfin, hu, Int.mul_ediv_cancel _ hone]

/-- The power of two `pow2 n` is finite and has the value 2^n. -/
theorem pow2_units {n : Int} (h1 : -1022 ≤ n) (h2 : n ≤ 1023) :
    (pow2 n).finite = true ∧ (pow2 n).units = 2 ^ (n + 1074).toNat := by
  obtain ⟨k, rfl⟩ : ∃ k : Nat, n = k - 1022 := ⟨(n + 1022).toNat, by omega⟩
  have hmag : ((k : Int) - 1022 + 1023).toNat * fracMod = k * fracMod + 2 ^ 52 := by
    unfold fracMod
    omega
  have hlt : k * fracMod + 2 ^ 52 < infMag := by
    unfold fracMod infMag
    omega
  have hu : magUnits (k * fracMod + 2 ^ 52) = 2 ^ (k + 52) := by
    rw [magUnits_pattern (by omega) (.inr le_rfl), ← Nat.pow_add, Nat.add_comm]
  rw [pow2, hmag, ofMag_of_lt hlt, show ((k : Int) - 1022 + 1074).toNat = k + 52 by omega]
  exact ⟨rfl, by simp only [units_fin, hu]; norm_cast⟩

/-- Settles O9: E1 as the exact value of `pow2`, E2 and E3 from the named function. -/
theorem exp2HasItsProperties : Obligations.Exp2HasItsProperties := by
  intro id
  obtain ⟨e1, e2, e3⟩ := exp2_ok id
  refine ⟨fun n h1 h2 => ?_, fun x _ hlo hhi => e2 x ?_, fun x y hlo hhi hxy => e3 x y ?_ ?_ hxy⟩
  · rw [e1 _ n (toInt?_i2f (by omega)) h1 h2]
    exact pow2_units h1 h2
  · rw [inExp2Range, hlo, hhi]
    rfl
  · rw [inExp2Range, hlo, F.le_trans hxy hhi]
    rfl
  · rw [inExp2Range, F.le_trans hlo hxy, hhi]
    rfl

end Sys2Proof

/-! ### The step (R18, R19) -/

namespace Sys2Proof.Machine

/-- With no event the step does nothing (R273). -/
theorem step_of_host_nil {s : State} (h : s.host = []) : step s = .next s := by
  rw [step, h]
  rfl

/-- A step is the first enabled event's, on the script without it. -/
theorem step_of_nextEvent {s : State} {e : HostEvent} {rest : List HostEvent}
    (h : nextEvent (pushEnabled s) s.host = some (e, rest)) : step s = takeEvent e { s with host := rest } := by
  rw [step, h]

/-- Settles O49: RESET and BLOCK are always enabled, a PUSH while CQ has room. -/
theorem stepTakesTheHostsFirstEvent : Obligations.StepTakesTheHostsFirstEvent := by
  intro s rest
  refine ⟨step_of_host_nil, fun c h => step_of_nextEvent (by rw [h]; rfl), fun h => step_of_nextEvent (by rw [h]; rfl),
    fun w h hroom => ?_⟩
  have hen : pushEnabled s = true := decide_eq_true hroom.ne
  have he : nextEvent (pushEnabled s) s.host = some (.push w, rest) := by
    rw [h, hen]
    exact nextEvent_cons_of_enabled _ _
  rw [step_of_nextEvent he]
  rfl

/-- DRAIN completes: every command word has a next state. -/
theorem drainWords_completes (ws : List Word) (s : State) : ∃ t, drainWords ws s = .next t := by
  induction ws generalizing s with
  | nil => exact ⟨s, rfl⟩
  | cons w ws ih =>
    rw [drainWords, exec_eq_next, andThen_next]
    exact ih _

/-- BLOCK completes. -/
theorem block_completes (s : State) : ∃ t, block s = .next t := by
  obtain ⟨t, ht⟩ := drainWords_completes s.cq s
  exact ⟨render t, by rw [block, drain, ht, andThen_next]⟩

/-- An event has a next state, or it is the RESET of an ill-formed configuration, which is refused. -/
theorem takeEvent_cases (e : HostEvent) (s : State) :
    (∃ t, takeEvent e s = .next t) ∨ ∃ c, e = .reset c ∧ wfCfg c = false ∧ takeEvent e s = .refused .badConfig := by
  cases e with
  | push w => exact .inl ⟨push w s, rfl⟩
  | block => exact .inl (block_completes s)
  | reset c =>
    cases hwf : wfCfg c with
    | true => exact .inl ⟨construct c s.host, by simp [takeEvent, resetVoice, hwf]⟩
    | false => exact .inr ⟨c, rfl, hwf, by simp [takeEvent, resetVoice, hwf]⟩

/-- Everything a step can answer: a next state, or the refusal of a RESET of an ill-formed configuration. -/
theorem step_outcome (s : State) :
    (∃ t, step s = .next t) ∨
      ∃ c rest, nextEvent (pushEnabled s) s.host = some (.reset c, rest) ∧ wfCfg c = false ∧ step s = .refused .badConfig := by
  cases he : nextEvent (pushEnabled s) s.host with
  | none => exact .inl ⟨s, by rw [step, he]⟩
  | some found =>
    obtain ⟨e, rest⟩ := found
    rw [step_of_nextEvent he]
    obtain ht | ⟨c, rfl, hwf, ht⟩ := takeEvent_cases e { s with host := rest }
    · exact .inl ht
    · exact .inr ⟨c, rest, rfl, hwf, ht⟩

/-- Settles O51: a step answers a next state, or refuses the RESET of an ill-formed configuration. -/
theorem onlyIllFormedResetsAreRefused : Obligations.OnlyIllFormedResetsAreRefused := by
  intro s
  obtain ⟨t, ht⟩ | ⟨c, rest, he, hwf, ht⟩ := step_outcome s
  · rw [ht]
    exact ⟨nofun, nofun⟩
  · rw [ht]
    refine ⟨nofun, fun r h => ⟨?_, c, rest, he, hwf⟩⟩
    cases h
    rfl

end Sys2Proof.Machine

/-! # Invariants of the state (10_state.md)

Each invariant is a property that every part of a step keeps (`StepStable`) and that RESET establishes. -/

namespace Sys2Proof

/-! ### Order and products of F (R13) -/

theorem F.le_of_lt {a b : F} (h : a.lt b = true) : a.le b = true := by
  obtain ⟨ha, hb, hlt⟩ := F.lt_iff.1 h
  exact F.le_iff.2 ⟨ha, hb, hlt.le⟩

/-- The product of finite values not below zero is not below zero. -/
theorem zero_le_fmul {r x : F} (hr : r.finite = true) (hr0 : F.zero.le r = true) (hx : x.finite = true)
    (hx0 : F.zero.le x = true) : F.zero.le (fmul r x) = true := by
  have hzero : F.zero.le (fmul r F.zero) = true := by
    rw [show F.zero = F.zeroOf false from rfl, fmul_zeroOf hr]
    cases r.sign <;> decide
  exact F.le_trans hzero (fmul_mono hr hr0 hx0 hx)

/-- Multiplication by a nonnegative finite value keeps the order of two positive finite values. -/
theorem fmul_mono_pos {r x y : F} (hr : r.finite = true) (hr0 : F.zero.le r = true) (hx : x.finite = true)
    (hx0 : F.zero.lt x = true) (h : x.le y = true) (hy : y.finite = true) : (fmul r x).le (fmul r y) = true := by
  rcases F.pos_cases hx0 with rfl | ⟨m, -, rfl⟩
  · exact absurd hx (by decide)
  · exact fmul_mono hr hr0 h hy

end Sys2Proof

namespace Sys2Proof.Machine

/-! ### The checks of R49 -/

/-- A check over the four indices passes exactly when it passes at each. -/
theorem indices_all_iff {P : Fin 4 → Bool} : indices.all P = true ↔ ∀ i, P i = true :=
  ⟨all_indices, fun h => List.all_eq_true.2 fun i _ => h i⟩

theorem wfRouting_iff {c : Cfg} :
    wfRouting c = true ↔
      ∀ i j, ((c.w.get i).get j).finite = true ∧ (i ≤ j → ((c.w.get i).get j).eq F.zero = true) := by
  simp only [wfRouting, indices_all_iff, Bool.and_eq_true, Bool.or_eq_true, decide_eq_true_eq, F.isZero, ← not_lt,
    or_iff_not_imp_left]

theorem wfOperators_iff {c : Cfg} :
    wfOperators c = true ↔
      ∀ i, (c.mix.get i).finite = true ∧ (c.amp.get i).finite = true ∧ (c.ratio.get i).finite = true ∧
        F.zero.le (c.ratio.get i) = true := by
  simp only [wfOperators, indices_all_iff, Bool.and_eq_true, and_assoc]

theorem wfKeys_iff {c : Cfg} :
    wfKeys c = true ↔ c.keyMin ≤ 69 ∧ 69 ≤ c.keyMax ∧ -32768 ≤ c.keyMin ∧ c.keyMax ≤ 32767 := by
  simp only [wfKeys, Bool.and_eq_true, decide_eq_true_eq, and_assoc]
  exact Iff.rfl

theorem wfPitch_iff {c : Cfg} :
    wfPitch c = true ↔ F.zero.lt (pitch c c.keyMin) = true ∧ (pitch c c.keyMax).finite = true ∧
      ∀ i, (fmul (c.ratio.get i) (pitch c c.keyMax)).finite = true := by
  simp only [wfPitch, indices_all_iff, Bool.and_eq_true, and_assoc]

theorem wfSizes_iff {c : Cfg} :
    wfSizes c = true ↔ 1 ≤ c.qdepth ∧ 1 ≤ c.blockLen ∧ 1 ≤ c.nch.length ∧ ∀ n ∈ c.nch, 1 ≤ n := by
  simp only [wfSizes, Bool.and_eq_true, decide_eq_true_eq, List.all_eq_true, and_assoc]
  exact Iff.rfl

theorem wfFunctions_iff {c : Cfg} : wfFunctions c = true ↔ c.sinturnOk = true ∧ c.exp2Ok = true :=
  Bool.and_eq_true_iff

/-- Settles O50: `wfCfg` is the conjunction of its checks, each of them read by its own lemma. -/
theorem wellFormedExactlyWhenEveryCheckPasses : Obligations.WellFormedExactlyWhenEveryCheckPasses := by
  intro c
  simp only [wfCfg, Bool.and_eq_true, wfRouting_iff, wfOperators_iff, wfKeys_iff, wfPitch_iff, wfSizes_iff,
    wfFunctions_iff, and_assoc]

/-! ### What a command word leaves unchanged (R181 to R184) -/

/-- A property of the outcomes of a command word: it does nothing, plays a key in range, marks a refusal, or ends the note. -/
theorem applyWord_induct {P : State → Prop} {s : State} (w : Word) (same : P s)
    (on : ∀ k, inKeyRange s.cfg k = true → P (noteOn k s)) (marked : P (markRefused s)) (off : P (noteOff s)) :
    P (applyWord s w) := by
  rcases applyWord_cases s w with h | ⟨k, hk, h⟩ | h | h <;> rw [h]
  · exact same
  · exact on k hk
  · exact marked
  · exact off

@[simp] theorem applyWord_cfg (s : State) (w : Word) : (applyWord s w).cfg = s.cfg :=
  applyWord_induct (P := fun t => t.cfg = s.cfg) w rfl (fun _ _ => rfl) rfl rfl

@[simp] theorem applyWord_mixdiag (s : State) (w : Word) : (applyWord s w).mixdiag = s.mixdiag :=
  applyWord_induct (P := fun t => t.mixdiag = s.mixdiag) w rfl (fun _ _ => rfl) rfl rfl

@[simp] theorem applyWord_diags (s : State) (w : Word) : (applyWord s w).diags = s.diags :=
  applyWord_induct (P := fun t => t.diags = s.diags) w rfl (fun _ _ => rfl) rfl rfl

@[simp] theorem applyWord_samples (s : State) (w : Word) : (applyWord s w).samples = s.samples :=
  applyWord_induct (P := fun t => t.samples = s.samples) w rfl (fun _ _ => rfl) rfl rfl

/-- A command word writes no register of an operator but its gate (R187). -/
theorem applyWord_get (s : State) (w : Word) (i : Fin 4) :
    ∃ v, (applyWord s w).op.get i = { s.op.get i with env := v } :=
  applyWord_induct (P := fun t => ∃ v, t.op.get i = { s.op.get i with env := v }) w
    ⟨_, rfl⟩ (fun k _ => ⟨_, noteOn_get k s i⟩) ⟨_, rfl⟩ ⟨_, noteOff_get s i⟩

@[simp] theorem applyWord_phase (s : State) (w : Word) (i : Fin 4) :
    ((applyWord s w).op.get i).phase = (s.op.get i).phase := by
  obtain ⟨v, h⟩ := applyWord_get s w i
  rw [h]

@[simp] theorem applyWord_out (s : State) (w : Word) (i : Fin 4) :
    ((applyWord s w).op.get i).out = (s.op.get i).out := by
  obtain ⟨v, h⟩ := applyWord_get s w i
  rw [h]

@[simp] theorem applyWord_diag (s : State) (w : Word) (i : Fin 4) :
    ((applyWord s w).op.get i).diag = (s.op.get i).diag := by
  obtain ⟨v, h⟩ := applyWord_get s w i
  rw [h]

/-! ### What ADVANCE does to each operator (R110 to R115) -/

/-- A property of one operator's registers after ADVANCE of some operator: it is the advanced one, or as before. -/
theorem advance_get_induct {Q : Operator → Prop} {s : State} (i j : Fin 4) (m : F) (same : Q (s.op.get j))
    (advanced : Q { phase := nextPhase j s
                    env := (s.op.get j).env
                    out := guarded (rawOutput j m s)
                    diag := (s.op.get j).diag || !(rawOutput j m s).finite }) :
    Q ((advance i m s).op.get j) := by
  by_cases hij : j = i
  · subst hij
    rwa [advance_get_self]
  · rwa [advance_get_ne m s hij]

/-- ADVANCE opens and closes no gate (R115). -/
@[simp] theorem advance_env (i j : Fin 4) (m : F) (s : State) :
    ((advance i m s).op.get j).env = (s.op.get j).env :=
  advance_get_induct (Q := fun o => o.env = (s.op.get j).env) i j m rfl rfl

/-! ### From the parts of a step to the step -/

/-- A property that every part of a step but RESET keeps, a step that takes no RESET keeps. -/
theorem StepStable.step_of_not_reset {P : State → Prop} (p : StepStable P) {s t : State}
    (hr : nextIsReset s = false) (hs : P s) (h : Machine.step s = .next t) : P t := by
  rcases p.step hs h with ht | ⟨hr', -⟩
  · exact ht
  · exact absurd (hr.symm.trans hr') Bool.false_ne_true

/-- A property that every part of a step but RESET keeps and that RESET establishes, every step keeps. -/
theorem StepStable.step_of_construct {P : State → Prop} (p : StepStable P)
    (fresh : ∀ c host, wfCfg c = true → P (construct c host)) {s t : State} (hs : P s)
    (h : Machine.step s = .next t) : P t := by
  rcases p.step hs h with ht | ⟨-, c, rest, hc, rfl⟩
  · exact ht
  · exact fresh c rest hc

/-! ### The configuration (R48) -/

theorem stepStable_cfg (c : Cfg) : StepStable fun s => s.cfg = c where
  word s w h := (applyWord_cfg s w).trans h
  queue _ _ h := h
  host _ _ h := h
  advance _ _ _ h := h
  finish _ _ h := h
  samples _ h := h
  keepAlive _ h := h

/-- Settles O52: no part of a step but RESET writes CFG. -/
theorem configurationIsFixedBetweenResets : Obligations.ConfigurationIsFixedBetweenResets :=
  fun s _ hr h => (stepStable_cfg s.cfg).step_of_not_reset hr rfl h

/-! ### Sticky flags, the mark and the stream (R38, R39, R51, R242) -/

/-- From `s` to `t` no sticky flag and no mark was cleared, and the stream only grew. -/
structure FlagsExtend (s t : State) : Prop where
  diag : ∀ i, (s.op.get i).diag = true → (t.op.get i).diag = true
  mixdiag : s.mixdiag = true → t.mixdiag = true
  refused : s.refused = true → t.refused = true
  diags : s.diags <+: t.diags

theorem FlagsExtend.refl (s : State) : FlagsExtend s s := ⟨fun _ => id, id, id, List.prefix_rfl⟩

/-- A report takes no record from the stream (R242). -/
theorem prefix_reportOnce (raised flag : Bool) (d : Diag) (stream : List Diag) :
    stream <+: reportOnce raised flag d stream := by
  rw [reportOnce_eq]
  exact List.prefix_append _ _

/-- A command word may set the mark and never clears it (R51, R182). -/
theorem applyWord_refused {s : State} (w : Word) (h : s.refused = true) : (applyWord s w).refused = true :=
  applyWord_induct (P := fun t => t.refused = true) w h (fun _ _ => h) rfl h

theorem stepStable_flagsExtend (s : State) : StepStable (FlagsExtend s) where
  word u w h :=
    { diag := fun i hi => (applyWord_diag u w i).trans (h.diag i hi)
      mixdiag := fun hm => (applyWord_mixdiag u w).trans (h.mixdiag hm)
      refused := fun hr => applyWord_refused w (h.refused hr)
      diags := (applyWord_diags u w).symm ▸ h.diags }
  queue _ _ h := ⟨h.diag, h.mixdiag, h.refused, h.diags⟩
  host _ _ h := ⟨h.diag, h.mixdiag, h.refused, h.diags⟩
  advance u i m h :=
    { diag := fun j hj => advance_get_induct (Q := fun o => o.diag = true) i j m (h.diag j hj) (by simp [h.diag j hj])
      mixdiag := h.mixdiag
      refused := h.refused
      diags := h.diags.trans (prefix_reportOnce _ _ _ _) }
  finish u k h :=
    { diag := h.diag
      mixdiag := fun hm => by simp [h.mixdiag hm]
      refused := h.refused
      diags := h.diags.trans (prefix_reportOnce _ _ _ _) }
  samples _ h := ⟨h.diag, h.mixdiag, h.refused, h.diags⟩
  keepAlive _ h := ⟨h.diag, h.mixdiag, h.refused, h.diags⟩

/-- Settles O53: every part of a step but RESET only sets flags and only appends records. -/
theorem flagsAreStickyBetweenResets : Obligations.FlagsAreStickyBetweenResets := by
  intro s t hr h
  obtain ⟨hdiag, hmix, hrefused, hdiags⟩ := (stepStable_flagsExtend s).step_of_not_reset hr (.refl s) h
  exact ⟨hdiag, hmix, hrefused, hdiags⟩

/-! ### The queue (R50, R278) -/

/-- DRAIN leaves CQ empty (R212). -/
theorem drain_cq {s t : State} (h : drain s = .next t) : t.cq = [] :=
  (drain_induct (P := fun _ => True) (fun _ _ => id) (fun _ _ => id) trivial h).2

/-- Settles O57: PUSH is taken only with room in CQ, and BLOCK and RESET leave CQ empty. -/
theorem stepKeepsQueueBounded : Obligations.StepKeepsQueueBounded := by
  intro s t hs h
  unfold queueBounded at *
  rcases step_cases h with rfl | ⟨w, rest, -, hroom, rfl⟩ | ⟨rest, u, -, hd, rfl⟩ | ⟨c, rest, -, -, rfl⟩
  · exact hs
  · rw [List.length_append]
    exact Nat.lt_of_le_of_ne hs hroom
  · rw [render_cq, drain_cq hd]
    exact Nat.zero_le _
  · exact Nat.zero_le _

/-! ### Outputs and samples (R37, R163) -/

/-- The guards of ADVANCE and MIXSUM let no non-finite value into an output or a sample. -/
theorem stepStable_outputsFinite : StepStable fun s => outputsFinite s ∧ samplesFinite s where
  word s w h :=
    ⟨fun i => (congrArg F.finite (applyWord_out s w i)).trans (h.1 i), fun y hy => h.2 y (applyWord_samples s w ▸ hy)⟩
  queue _ _ h := h
  host _ _ h := h
  advance _ i m h :=
    ⟨fun j => advance_get_induct (Q := fun o => o.out.finite = true) i j m (h.1 j) (guarded_finite _), h.2⟩
  finish s k h := by
    refine ⟨h.1, fun y hy => ?_⟩
    rcases List.mem_append.1 hy with hold | hnew
    · exact h.2 y hold
    · rw [List.mem_singleton.1 hnew]
      exact guarded_finite _
  samples _ h := ⟨h.1, fun _ hy => absurd hy List.not_mem_nil⟩
  keepAlive _ h := h

/-- Settles O56: every value written to an output or a sample is a guarded one, and a fresh voice holds `+0` and no sample. -/
theorem stepKeepsOutputsFinite : Obligations.StepKeepsOutputsFinite := by
  refine fun s t hs h => stepStable_outputsFinite.step_of_construct (fun c host _ => ⟨fun i => ?_, ?_⟩) hs h
  · rw [construct_get]
    rfl
  · exact fun _ hy => absurd hy List.not_mem_nil

/-! ### Key, increment and gates (R31, R32, R33, R36) -/

/-- Agreement of the gates is a matter of the gates alone. -/
theorem gatesAgree_of_env_eq {s t : State} (he : ∀ i, (t.op.get i).env = (s.op.get i).env) (h : gatesAgree s) :
    gatesAgree t := by
  intro i
  have h0 : t.op.x0.env = s.op.x0.env := he 0
  rw [h0, he i]
  exact h i

/-- Four gates of one value, 0.0 or 1.0, agree. -/
theorem gatesAgree_of_forall {s : State} {v : F} (hv : v = F.zero ∨ v = F.one) (h : ∀ i, (s.op.get i).env = v) :
    gatesAgree s := by
  intro i
  have h0 : s.op.x0.env = v := h 0
  rw [h0, h i]
  exact ⟨rfl, hv⟩

/-- A command word keeps the voice state: an accepted NOTE_ON checks the key and sets KEY, PINC and every gate together (R181). -/
theorem voiceOk_applyWord {s : State} (w : Word) (h : voiceOk s) : voiceOk (applyWord s w) := by
  obtain ⟨hwf, hkey, hpinc, hgates⟩ := h
  refine applyWord_induct w ⟨hwf, hkey, hpinc, hgates⟩ (fun k hk => ⟨hwf, hk, rfl, ?_⟩)
    ⟨hwf, hkey, hpinc, hgates⟩ ⟨hwf, hkey, hpinc, ?_⟩
  · exact gatesAgree_of_forall (.inr rfl) fun i => by rw [noteOn_get]
  · exact gatesAgree_of_forall (.inl rfl) fun i => by rw [noteOff_get]

theorem stepStable_voiceOk : StepStable voiceOk where
  word _ w h := voiceOk_applyWord w h
  queue _ _ h := h
  host _ _ h := h
  advance s i m h := by
    obtain ⟨hwf, hkey, hpinc, hgates⟩ := h
    exact ⟨hwf, hkey, hpinc, gatesAgree_of_env_eq (fun j => advance_env i j m s) hgates⟩
  finish _ _ h := h
  samples _ h := h
  keepAlive _ h := h

/-- A fresh voice holds the default key, which a well-formed configuration has in its range (R49, R270). -/
theorem voiceOk_construct {c : Cfg} (host : List HostEvent) (hwf : wfCfg c = true) : voiceOk (construct c host) := by
  obtain ⟨-, -, -, -, ⟨hmin, hmax, -⟩, -⟩ := (wellFormedExactlyWhenEveryCheckPasses c).1 hwf
  have h69 : keyInt defaultKey = 69 := by decide
  refine ⟨hwf, ?_, ?_, gatesAgree_of_forall (.inl rfl) fun i => by rw [construct_get]; rfl⟩
  · show inKeyRange c defaultKey = true
    simp [inKeyRange, h69, hmin, hmax]
  · show pitch c refKey = pitch c (keyInt defaultKey)
    rw [h69, refKey]

/-- Settles O54: every part of a step keeps the voice state, and RESET establishes it. -/
theorem stepKeepsVoiceState : Obligations.StepKeepsVoiceState :=
  fun _ _ hs h => stepStable_voiceOk.step_of_construct (fun _ host hwf => voiceOk_construct host hwf) hs h

/-! ### The pitch on the key range (R49, R180, R188) -/

theorem refPitch_finite : refPitch.finite = true := by decide +kernel

theorem refPitch_nonneg : F.zero.le refPitch = true := by decide +kernel

/-- Multiplication by 440.0 keeps a finite positive value positive: the smallest one does not round to zero. -/
theorem zero_lt_fmul_refPitch {x : F} (hx : x.finite = true) (h0 : F.zero.lt x = true) :
    F.zero.lt (fmul refPitch x) = true := by
  have hmin : F.zero.lt (fmul refPitch (.fin false ⟨1, by decide⟩)) = true := by decide +kernel
  rcases F.pos_cases h0 with rfl | ⟨m, hm, rfl⟩
  · exact absurd hx (by decide)
  refine F.lt_of_lt_of_le hmin (fmul_mono refPitch_finite refPitch_nonneg ?_ rfl)
  refine F.le_iff.2 ⟨nofun, nofun, ?_⟩
  simp only [F.place]
  omega

/-- A higher key has no lower pitch, where R16 speaks of both octave numbers (R188). -/
theorem pitch_mono {c : Cfg} {k k' : Int} (hsr : c.sr.finite = true) (hsr0 : F.zero.lt c.sr = true)
    (h1 : -12195 ≤ k) (h : k ≤ k') (h2 : k' ≤ 12345) : (pitch c k).le (pitch c k') = true := by
  obtain ⟨hfin, hpos⟩ := exp2_octaves c.exp2 h1 (by omega : k ≤ 12345)
  obtain ⟨hfin', -⟩ := exp2_octaves c.exp2 (by omega : -12195 ≤ k') h2
  have hle := exp2_octaves_mono c.exp2 h1 h h2
  unfold pitch
  exact fdiv_mono hsr hsr0 (zero_lt_fmul_refPitch hfin hpos)
    (fmul_mono_pos refPitch_finite refPitch_nonneg hfin hpos hle hfin')

/-- On the key range of a well-formed configuration the pitch is finite and positive (R180, log 17). -/
theorem pitch_finite_pos {c : Cfg} {k : Int} (hwf : wfCfg c = true) (hrange : keysInExp2Range c) (hlo : c.keyMin ≤ k)
    (hhi : k ≤ c.keyMax) : (pitch c k).finite = true ∧ F.zero.lt (pitch c k) = true := by
  obtain ⟨⟨hsr, hsr0⟩, -, -, -, -, ⟨hmin, hmax, -⟩, -⟩ := (wellFormedExactlyWhenEveryCheckPasses c).1 hwf
  obtain ⟨h1, h2⟩ := hrange
  have hpos : F.zero.lt (pitch c k) = true := F.lt_of_lt_of_le hmin (pitch_mono hsr hsr0 h1 hlo (hhi.trans h2))
  exact ⟨F.finite_of_le (F.le_of_lt hpos) (pitch_mono hsr hsr0 (h1.trans hlo) hhi h2) hmax, hpos⟩

/-- On the key range of a well-formed configuration the phase increment is finite and not negative (R113, R180, log 17). -/
theorem increment_finite_nonneg {c : Cfg} {k : Int} (hwf : wfCfg c = true) (hrange : keysInExp2Range c)
    (hlo : c.keyMin ≤ k) (hhi : k ≤ c.keyMax) (i : Fin 4) :
    (fmul (c.ratio.get i) (pitch c k)).finite = true ∧ F.zero.le (fmul (c.ratio.get i) (pitch c k)) = true := by
  obtain ⟨⟨hsr, hsr0⟩, -, hops, -, -, ⟨-, hmax, htop⟩, -⟩ := (wellFormedExactlyWhenEveryCheckPasses c).1 hwf
  obtain ⟨-, -, hratio, hratio0⟩ := hops i
  obtain ⟨hfin, hpos⟩ := pitch_finite_pos hwf hrange hlo hhi
  have hnonneg := zero_le_fmul hratio hratio0 hfin (F.le_of_lt hpos)
  have hle := pitch_mono hsr hsr0 (hrange.1.trans hlo) hhi hrange.2
  exact ⟨F.finite_of_le hnonneg (fmul_mono_pos hratio hratio0 hfin hpos hle hmax) (htop i), hnonneg⟩

/-! ### Phases (R35, R113, R114) -/

/-- The values in [0, 1): a clear sign and a magnitude pattern below that of 1.0. -/
theorem inUnit_iff {x : F} : inUnit x ↔ ∃ a : Fin infMag, a.val < 0x3FF0000000000000 ∧ x = .fin false a := by
  constructor
  · rintro ⟨h0, h1, hne⟩
    have hplace := (F.lt_iff.1 h1).2.2
    have hfin : x.finite = true := F.finite_of_le h0 (F.le_of_lt h1) rfl
    rcases F.nonneg_cases hfin h0 with rfl | ⟨a, rfl⟩
    · exact absurd rfl hne
    · exact ⟨a, by simpa [F.place, F.one] using hplace, rfl⟩
  · rintro ⟨a, ha, rfl⟩
    refine ⟨F.le_iff.2 ⟨nofun, nofun, ?_⟩, F.lt_iff.2 ⟨nofun, nofun, ?_⟩, by simp [F.zeroOf]⟩
    · simp [F.place, F.zero, F.zeroOf]
    · simpa [F.place, F.one] using ha

/-- A phase in [0, 1) plus a finite increment that is not negative wraps into [0, 1) (R114). -/
theorem inUnit_frac_fadd {p d : F} (hp : inUnit p) (hd : d.finite = true) (hd0 : F.zero.le d = true) :
    inUnit (frac (fadd p d)) := by
  obtain ⟨a, ha, rfl⟩ := inUnit_iff.1 hp
  have hsum : ∃ t : Fin infMag, fadd (.fin false a) d = .fin false t := by
    rcases F.nonneg_cases hd hd0 with rfl | ⟨b, rfl⟩
    · exact ⟨a, fadd_zeroOf (by simp [F.zeroOf])⟩
    · exact fadd_phase_finite ha
  obtain ⟨t, ht⟩ := hsum
  obtain ⟨w, hw, -, hwrap⟩ := fsub_ffloor t
  rw [ht, frac, hwrap]
  exact inUnit_iff.2 ⟨w, hw, rfl⟩

/-- With the voice state in order every next phase lies in [0, 1), as the increment is that of a key in range. -/
theorem inUnit_nextPhase {s : State} (h : voiceOk s) (hrange : keysInExp2Range s.cfg) (i : Fin 4)
    (hp : inUnit (s.op.get i).phase) : inUnit (nextPhase i s) := by
  obtain ⟨hwf, hkey, hpinc, -⟩ := h
  obtain ⟨hlo, hhi⟩ : s.cfg.keyMin ≤ keyInt s.key ∧ keyInt s.key ≤ s.cfg.keyMax := by simpa [inKeyRange] using hkey
  obtain ⟨hfin, hnonneg⟩ := increment_finite_nonneg hwf hrange hlo hhi i
  rw [nextPhase, hpinc]
  exact inUnit_frac_fadd hp hfin hnonneg

theorem stepStable_phaseOk : StepStable phaseOk where
  word s w h := by
    refine ⟨stepStable_voiceOk.word s w h.1, fun hrange i => ?_⟩
    rw [applyWord_phase]
    exact h.2 (applyWord_cfg s w ▸ hrange) i
  queue _ _ h := h
  host _ _ h := h
  advance s i m h := by
    refine ⟨stepStable_voiceOk.advance s i m h.1, fun hrange j => ?_⟩
    have hp := h.2 hrange j
    exact advance_get_induct (Q := fun o => inUnit o.phase) i j m hp (inUnit_nextPhase h.1 hrange j hp)
  finish _ _ h := h
  samples _ h := h
  keepAlive _ h := h

/-- Settles O55: the increment of a key in range is finite and not negative, so each wrap stays in [0, 1); RESET starts at `+0`. -/
theorem stepKeepsPhasesInUnitInterval : Obligations.StepKeepsPhasesInUnitInterval := by
  refine fun s t hs h =>
    stepStable_phaseOk.step_of_construct (fun c host hwf => ⟨voiceOk_construct host hwf, fun _ i => ?_⟩) hs h
  rw [construct_get]
  exact inUnit_iff.2 ⟨_, by decide, rfl⟩

end Sys2Proof.Machine

namespace Sys2Proof.Machine

/-! ### The shape of the buffers (R71, R280) -/

/-- No part of a step but RESET changes the buffers' shape: only the end of a tick writes them, one element of each channel (R213). -/
theorem stepStable_bufsShaped : StepStable bufsShaped where
  word _ w h := applyWord_induct w h (fun _ _ => h) h h
  queue _ _ h := h
  host _ _ h := h
  advance _ _ _ h := h
  finish s k h := by
    unfold bufsShaped at h ⊢
    rw [finishTick_cfg, finishTick_bufs, ← h]
    simp
  samples _ h := h
  keepAlive _ h := h

theorem bufsShaped_construct (c : Cfg) (host : List HostEvent) : bufsShaped (construct c host) := by
  simp [bufsShaped, construct, blankBuffers]

/-- Settles O59: writing an element keeps its channel's length, and RESET makes the buffers of the configured shape. -/
theorem stepKeepsBufferShape : Obligations.StepKeepsBufferShape :=
  fun _ _ hs h => stepStable_bufsShaped.step_of_construct (fun c host _ => bufsShaped_construct c host) hs h

/-! ### The outputs are never read (R72, R242) -/

/-- `s` with other outputs (R30): the stream, the samples, the buffers and KEEP_ALIVE. -/
def withOutputs (diags : List Diag) (samples : List F) (bufs : List (List (List HostSample))) (keep : Option Bool)
    (s : State) : State :=
  { s with diags := diags, samples := samples, bufs := bufs, keepAlive := keep }

theorem sameButOutputs_iff {s t : State} : sameButOutputs s t ↔ ∃ d y b k, t = withOutputs d y b k s := by
  constructor
  · intro h
    exact ⟨t.diags, t.samples, t.bufs, t.keepAlive, (congrArg (withOutputs t.diags t.samples t.bufs t.keepAlive) h).symm⟩
  · rintro ⟨d, y, b, k, rfl⟩
    rfl

section Drain

variable {d : List Diag} {y : List F} {b : List (List (List HostSample))} {k : Option Bool}

/-- A command word reads and writes no output (R181 to R184). -/
theorem applyWord_withOutputs (s : State) (w : Word) :
    applyWord (withOutputs d y b k s) w = withOutputs d y b k (applyWord s w) := by
  unfold applyWord
  cases decode w with
  | nop => rfl
  | unknown op => rfl
  | noteOn key =>
    rw [exec, execNoteOn, exec, execNoteOn, nextOr_next, nextOr_next, apply_ite (withOutputs d y b k)]
    rfl
  | noteOff key =>
    rw [exec, execNoteOff, exec, execNoteOff, nextOr_next, nextOr_next, apply_ite (withOutputs d y b k)]
    rfl

theorem drainWords_withOutputs (ws : List Word) {s u : State} (h : drainWords ws s = .next u) :
    drainWords ws (withOutputs d y b k s) = .next (withOutputs d y b k u) := by
  induction ws generalizing s with
  | nil =>
    cases h
    rfl
  | cons w ws ih =>
    rw [drainWords, exec_eq_next, andThen_next] at h ⊢
    rw [← ih h]
    exact congrArg (drainWords ws) (applyWord_withOutputs { s with cq := ws } w)

/-- DRAIN reads and writes no output (R212). -/
theorem drain_withOutputs {s u : State} (h : drain s = .next u) :
    drain (withOutputs d y b k s) = .next (withOutputs d y b k u) :=
  drainWords_withOutputs s.cq h

end Drain

/-- DRAIN emits no record. -/
theorem drain_diags {s u : State} (h : drain s = .next u) : u.diags = s.diags :=
  (drain_induct (P := fun t => t.diags = s.diags) (fun t w ht => (applyWord_diags t w).trans ht) (fun _ _ => id) rfl h).1

theorem block_of_drain {s u : State} (h : drain s = .next u) : block s = .next (render u) := by
  rw [block, h, andThen_next]

/-- Two runs of the ticks side by side, from the streams `d` and `d'`: the states agree but for the outputs,
the samples agree, and the same records were added to both streams. -/
def RendersAlike (d d' : List Diag) (t t' : State) : Prop :=
  ∃ new b k, t.diags = d ++ new ∧ t' = withOutputs (d' ++ new) t.samples b k t

section Ticks

variable {d d' : List Diag} {t t' : State}

/-- What a claim may observe of runs that are alike. -/
theorem RendersAlike.observed (h : RendersAlike d d' t t') :
    sameButOutputs t t' ∧ t.samples = t'.samples ∧ ∃ new, t.diags = d ++ new ∧ t'.diags = d' ++ new := by
  obtain ⟨new, b, k, hnew, rfl⟩ := h
  exact ⟨sameButOutputs_iff.2 ⟨_, _, _, _, rfl⟩, rfl, new, hnew, rfl⟩

theorem RendersAlike.eq_withOutputs (h : RendersAlike d d' t t') :
    ∃ e b k, t' = withOutputs e t.samples b k t := by
  obtain ⟨new, b, k, -, heq⟩ := h
  exact ⟨d' ++ new, b, k, heq⟩

/-- Runs that agree but for the outputs stay alike when both make the same report (R243). -/
theorem RendersAlike.report {u u' : State} {raised flag : Bool} {r : Diag} {b : List (List (List HostSample))}
    {k : Option Bool} (h : RendersAlike d d' t t') (hu : u.diags = reportOnce raised flag r t.diags)
    (hu' : u' = withOutputs (reportOnce raised flag r t'.diags) u.samples b k u) : RendersAlike d d' u u' := by
  obtain ⟨-, -, new, hnew, hnew'⟩ := h.observed
  refine ⟨new ++ if raised && !flag then [r] else [], b, k, ?_, ?_⟩
  · rw [hu, reportOnce_eq, hnew, List.append_assoc]
  · rw [hu', reportOnce_eq, hnew', List.append_assoc]

/-- MODIN and ADVANCE read no output of the voice (R110 to R113, R140). -/
theorem RendersAlike.runOperator (h : RendersAlike d d' t t') (i : Fin 4) :
    RendersAlike d d' (runOperator t i) (runOperator t' i) := by
  obtain ⟨_, _, _, rfl⟩ := h.eq_withOutputs
  exact h.report rfl rfl

/-- MIXSUM reads no output of the voice, and both runs observe the same sample (R160, R161, R210). -/
theorem RendersAlike.finishTick (h : RendersAlike d d' t t') (n : Nat) :
    RendersAlike d d' (finishTick n t) (finishTick n t') := by
  obtain ⟨_, _, _, rfl⟩ := h.eq_withOutputs
  exact h.report rfl rfl

theorem RendersAlike.tick (h : RendersAlike d d' t t') (n : Nat) : RendersAlike d d' (tick t n) (tick t' n) := by
  unfold Machine.tick runOperators
  exact (List.foldl_rel h fun i _ _ _ hc => hc.runOperator i).finishTick n

theorem RendersAlike.ticks (h : RendersAlike d d' t t') (ns : List Nat) :
    RendersAlike d d' (ns.foldl Machine.tick t) (ns.foldl Machine.tick t') :=
  List.foldl_rel h fun n _ _ _ hc => hc.tick n

/-- The ticks of a block start from the emptied samples and read no output (R211, R218). -/
theorem rendersAlike_render (u : State) (d' : List Diag) (y : List F) (b : List (List (List HostSample)))
    (k : Option Bool) : RendersAlike u.diags d' (render u) (render (withOutputs d' y b k u)) := by
  have start : RendersAlike u.diags d' { u with samples := [] } { withOutputs d' y b k u with samples := [] } :=
    ⟨[], b, k, (List.append_nil _).symm, by rw [List.append_nil]; rfl⟩
  obtain ⟨new, b', _, hnew, heq⟩ := start.ticks (List.range u.cfg.blockLen)
  exact ⟨new, b', some true, hnew, congrArg (fun t : State => { t with keepAlive := some true }) heq⟩

end Ticks

/-- Settles O43: DRAIN ignores the outputs, and the ticks, which start from no samples, only write them. -/
theorem outputsAreNeverRead : Obligations.OutputsAreNeverRead := by
  intro s s' t t' hs ht ht'
  obtain ⟨d, y, b, k, rfl⟩ := sameButOutputs_iff.1 hs
  obtain ⟨u, hu⟩ := drainWords_completes s.cq s
  cases ht.symm.trans (block_of_drain hu)
  cases ht'.symm.trans (block_of_drain (drain_withOutputs hu))
  rw [← drain_diags hu]
  exact (rendersAlike_render u d y b k).observed

end Sys2Proof.Machine

/-! # Command words (30_encoding.md)

The fields of a word and the command they select, then the statements they settle. -/

namespace Sys2Proof

/-! ### The fields of a word (R90) -/

@[simp] theorem opField_cmdWord (op rsv : BitVec 8) (key : Key) : opField (cmdWord op rsv key) = op :=
  (cmdWord_fields op rsv key).1

@[simp] theorem keyField_cmdWord (op rsv : BitVec 8) (key : Key) : keyField (cmdWord op rsv key) = key :=
  (cmdWord_fields op rsv key).2.2

theorem opField_toNat (w : Word) : (opField w).toNat = w.toNat / 2 ^ 24 := by
  rw [opField, BitVec.extractLsb'_toNat, Nat.shiftRight_eq_div_pow]
  exact Nat.mod_eq_of_lt (by omega)

theorem keyField_toNat (w : Word) : (keyField w).toNat = w.toNat % 2 ^ 16 := by
  rw [keyField, BitVec.extractLsb'_toNat, Nat.shiftRight_zero]

/-- Settles O10: each appended field shifts the ones before it by its own width. -/
theorem commandWordHasItsFields : Obligations.CommandWordHasItsFields := by
  intro op rsv key
  rw [cmdWord, BitVec.toNat_append, BitVec.toNat_append, ← Nat.shiftLeft_add_eq_or_of_lt key.isLt,
    ← Nat.shiftLeft_add_eq_or_of_lt rsv.isLt, Nat.shiftLeft_eq, Nat.shiftLeft_eq]
  omega

/-! ### The command a word selects (R94) -/

section

variable {w : Word}

theorem decode_of_opField_zero (h : opField w = 0x00) : decode w = .nop := if_pos h

theorem decode_of_opField_one (h : opField w = 0x01) : decode w = .noteOn (keyField w) := by
  rw [decode, if_neg (by rw [h]; decide), if_pos h]

theorem decode_of_opField_two (h : opField w = 0x02) : decode w = .noteOff (keyField w) := by
  rw [decode, if_neg (by rw [h]; decide), if_neg (by rw [h]; decide), if_pos h]

theorem decode_of_three_le_opField (h : 3 ≤ (opField w).toNat) : decode w = .unknown (opField w) := by
  have hne : ∀ c : BitVec 8, c.toNat < 3 → opField w ≠ c := fun c hc heq => by
    rw [heq] at h
    omega
  rw [decode, if_neg (hne 0x00 (by decide)), if_neg (hne 0x01 (by decide)), if_neg (hne 0x02 (by decide))]

end

/-- Decoding reads OP and KEY, and no other bit of the word (R93, R94). -/
theorem decode_congr {v w : Word} (hop : opField v = opField w) (hkey : keyField v = keyField w) : decode v = decode w := by
  rw [decode, decode, hop, hkey]

/-- Settles O13: each command's word carries the OP value that selects it, and its operand. -/
theorem decodeOfEncodeIsTheCommand : Obligations.DecodeOfEncodeIsTheCommand := by
  intro i hwf
  cases i with
  | nop => exact decode_of_opField_zero (opField_cmdWord 0x00 0 0)
  | noteOn key => rw [encode, decode_of_opField_one (opField_cmdWord 0x01 0 key), keyField_cmdWord]
  | noteOff key => rw [encode, decode_of_opField_two (opField_cmdWord 0x02 0 key), keyField_cmdWord]
  | unknown op =>
    have hop : opField (encode (.unknown op)) = op := opField_cmdWord op 0 0
    rw [decode_of_three_le_opField (by rw [hop]; exact of_decide_eq_true hwf), hop]

/-- Settles O12: the two words have the same OP and KEY. -/
theorem reservedFieldIsIgnored : Obligations.ReservedFieldIsIgnored := by
  intro op rsv key s
  have h : decode (cmdWord op rsv key) = decode (cmdWord op 0 key) := decode_congr (by simp) (by simp)
  rw [h]

namespace Machine

/-- The key operand of a word is bits 15..0 as two's complement (R92). -/
theorem keyInt_keyField (w : Word) :
    keyInt (keyField w) =
      if w.toNat % 2 ^ 16 < 2 ^ 15 then ((w.toNat % 2 ^ 16 : Nat) : Int) else ((w.toNat % 2 ^ 16 : Nat) : Int) - 2 ^ 16 := by
  rw [keyInt, BitVec.toInt_eq_toNat_cond, keyField_toNat]
  split <;> split <;> omega

/-- Settles O11: OP as a number selects the branch, and KEY is read by `keyInt_keyField`. -/
theorem decodingReadsOpAndKey : Obligations.DecodingReadsOpAndKey := by
  intro w
  have hop : ∀ c : BitVec 8, w.toNat / 2 ^ 24 = c.toNat → opField w = c := fun c hc =>
    BitVec.eq_of_toNat_eq ((opField_toNat w).trans hc)
  exact ⟨fun h => decode_of_opField_zero (hop 0x00 h),
    fun h => ⟨keyField w, decode_of_opField_one (hop 0x01 h), keyInt_keyField w⟩,
    fun h => ⟨keyField w, decode_of_opField_two (hop 0x02 h), keyInt_keyField w⟩,
    fun h => ⟨opField w, decode_of_three_le_opField (by rwa [opField_toNat]), opField_toNat w⟩⟩

/-! ### The command syntax (R99) -/

/-- An operand that a key field can hold is assembled to the field with that value. -/
theorem asmKey_of_mem {k : Int} (hlo : -32768 ≤ k) (hhi : k ≤ 32767) : ∃ f : Key, f.toInt = k ∧ asmKey k = some f :=
  ⟨BitVec.ofInt 16 k, BitVec.toInt_ofInt_eq_self (by decide) hlo (by omega), if_pos ⟨hlo, hhi⟩⟩

theorem asmKey_of_not_mem {k : Int} (h : k < -32768 ∨ 32767 < k) : asmKey k = none :=
  if_neg (by omega)

/-- Settles O15: the key operands by the two cases of `asmKey`; a word's number is below 2^32, and any such number is a word. -/
theorem assemblerGivesEachLineItsWord : Obligations.AssemblerGivesEachLineItsWord := by
  refine ⟨by decide, fun k hlo hhi => ?_, fun k h => ?_, fun w => ?_, fun n h => if_neg (by omega)⟩
  · obtain ⟨f, hf, hasm⟩ := asmKey_of_mem hlo hhi
    exact ⟨f, hf, by rw [assemble, hasm]; rfl, by rw [assemble, hasm]; rfl⟩
  · rw [assemble, assemble, asmKey_of_not_mem h]
    exact ⟨rfl, rfl⟩
  · rw [assemble, if_pos w.isLt, BitVec.ofNat_toNat, BitVec.setWidth_eq]

end Machine

end Sys2Proof

/-! # Operators (41_operator.md)

The arithmetic of one operator, what ADVANCE, START, STOP and the commands write, then the statements they settle. -/

namespace Sys2Proof

/-! ### Finiteness and magnitude (R13) -/

theorem fmul_nan (a : F) : fmul a .nan = .nan := by
  obtain ⟨-, -, -, h, -⟩ := arith_nan a
  exact h

/-- A non-finite factor beside a finite nonzero one makes the product non-finite. -/
theorem fmul_not_finite {a x : F} (ha : a.finite = true) (h0 : a.units ≠ 0) (hx : x.finite = false) :
    (fmul a x).finite = false := by
  cases x with
  | nan => rw [fmul_nan, hx]
  | inf s =>
    obtain ⟨-, hinf, -⟩ := fmul_inf_fdiv_zeroOf s ha h0
    rw [hinf]
    rfl
  | fin s n => exact absurd hx nofun

theorem F.abs_zero_le {a : F} (ha : a.finite = true) : F.zero.abs.le a.abs = true := by
  match a, ha with
  | .fin s m, _ => exact F.le_iff.2 ⟨nofun, nofun, Int.natCast_nonneg m.val⟩

end Sys2Proof

namespace Sys2Proof.Machine

/-! ### What a command writes (R119, R187) -/

/-- Everything a command that answers a next state can have done. -/
theorem exec_next_cases {c : Instr} {s t : State} (h : exec c s = .next t) :
    t = s ∨ (∃ k, c = .noteOn k ∧ inKeyRange s.cfg k = true ∧ t = noteOn k s) ∨
      (∃ k, c = .noteOn k ∧ inKeyRange s.cfg k = false ∧ t = markRefused s) ∨ (c = .noteOff s.key ∧ t = noteOff s) := by
  rcases exec_cases c s with he | ⟨k, hc, hk, he⟩ | ⟨k, hc, hk, he⟩ | ⟨hc, he⟩ <;> cases he.symm.trans h
  · exact .inl rfl
  · exact .inr (.inl ⟨k, hc, hk, rfl⟩)
  · exact .inr (.inr (.inl ⟨k, hc, hk, rfl⟩))
  · exact .inr (.inr (.inr ⟨hc, rfl⟩))

/-- Settles O19: of the operators a command writes the gates alone, and only a NOTE_ON writes KEY and PINC or the mark. -/
theorem commandsKeepPhasesOutputsAndFlags : Obligations.CommandsKeepPhasesOutputsAndFlags := by
  intro c s t h
  obtain rfl | ⟨k, rfl, -, rfl⟩ | ⟨k, rfl, -, rfl⟩ | ⟨-, rfl⟩ := exec_next_cases h
  · exact ⟨fun _ => ⟨rfl, rfl, rfl⟩, rfl, rfl, rfl, rfl, rfl, rfl, rfl, rfl, fun _ => ⟨rfl, rfl, rfl⟩⟩
  · refine ⟨fun j => ?_, rfl, rfl, rfl, rfl, rfl, rfl, rfl, rfl, fun hne => absurd rfl (hne k)⟩
    rw [noteOn_get]
    exact ⟨rfl, rfl, rfl⟩
  · exact ⟨fun _ => ⟨rfl, rfl, rfl⟩, rfl, rfl, rfl, rfl, rfl, rfl, rfl, rfl, fun hne => absurd rfl (hne k)⟩
  · refine ⟨fun j => ?_, rfl, rfl, rfl, rfl, rfl, rfl, rfl, rfl, fun _ => ⟨rfl, rfl, rfl⟩⟩
    rw [noteOff_get]
    exact ⟨rfl, rfl, rfl⟩

/-- Settles O27: START and STOP are writes of one register. -/
theorem startAndStopWriteOnlyTheGate : Obligations.StartAndStopWriteOnlyTheGate :=
  fun _ _ => ⟨rfl, rfl⟩

/-! ### ADVANCE as a whole (R110 to R115) -/

/-- ADVANCE, written out: the registers of its operator, the report, and nothing else. -/
theorem advance_eq (i : Fin 4) (m : F) (s : State) :
    advance i m s =
      { s with
        op := s.op.set i
          { phase := nextPhase i s
            env := (s.op.get i).env
            out := guarded (rawOutput i m s)
            diag := (s.op.get i).diag || !(rawOutput i m s).finite }
        diags := reportOnce (!(rawOutput i m s).finite) (s.op.get i).diag (opnfRecord i s) s.diags } := by
  simp [advance, setPhase, setOut, modifyOp, guardOperator]

/-- Settles O26: `advance_eq` in the three cases of the guard: not firing, firing again, firing for the first time. -/
theorem advanceComputesOutputGuardAndPhase : Obligations.AdvanceComputesOutputGuardAndPhase := by
  intro s i m r o t
  have ho : rawOutput i m s = o := rfl
  have ht : nextPhase i s = fsub t (ffloor t) := rfl
  rw [advance_eq, ho, ht]
  refine ⟨fun hfin => ?_, fun hfin hdiag => ?_, fun hfin hdiag => ?_⟩
  · rw [guarded_of_finite hfin, hfin, Bool.not_true, Bool.or_false]
    rfl
  · rw [guarded_of_not_finite hfin, hfin, hdiag]
    rfl
  · rw [guarded_of_not_finite hfin, hfin, hdiag]
    rfl

/-! ### The phase (R113, R114) -/

/-- Settles O28: ADVANCE writes the wrapped sum of the phase and the increment, whatever the modulation. -/
theorem advanceKeepsPhaseInUnitInterval : Obligations.AdvanceKeepsPhaseInUnitInterval := by
  intro s i m hp hinc hinc0
  rw [advance_get_self]
  exact inUnit_frac_fadd hp hinc hinc0

/-- A tick takes every phase one step on (R113, R210). -/
theorem tick_phase (s : State) (k : Nat) (i : Fin 4) :
    ((tick s k).op.get i).phase = phaseStep s i (s.op.get i).phase := by
  rw [tick_op, runOperators_phase]
  rfl

/-- A tick keeps the increment of every phase (R32, R48). -/
theorem phaseStep_tick (s : State) (k : Nat) (i : Fin 4) : phaseStep (tick s k) i = phaseStep s i := by
  funext p
  rw [phaseStep, phaseStep, tick_cfg, tick_pinc]

theorem ticks_phase (ks : List Nat) (s : State) (i : Fin 4) :
    ((ks.foldl tick s).op.get i).phase = (phaseStep s i)^[ks.length] (s.op.get i).phase := by
  induction ks generalizing s with
  | nil => rfl
  | cons k ks ih =>
    rw [List.foldl_cons, ih, phaseStep_tick, tick_phase, List.length_cons, Function.iterate_succ_apply]

/-- Settles O38: a block runs BLOCK_LEN ticks, each of them one step of every phase. -/
theorem phaseRunsOnEverySample : Obligations.PhaseRunsOnEverySample := by
  intro s i
  have h := ticks_phase (List.range s.cfg.blockLen) { s with samples := [] } i
  rwa [List.length_range] at h

/-! ### The output and the guard (R111, R112, R116) -/

/-- The modulation index is finite and nonzero. -/
theorem modIdx_finite_nonzero : modIdx.finite = true ∧ modIdx.units ≠ 0 := by
  obtain ⟨hfin, hu⟩ := i2f_units (n := 4) (by decide)
  have hone : (unitsOne : Int) ≠ 0 := by exact_mod_cast unitsOne_pos.ne'
  rw [modIdx, hu]
  exact ⟨hfin, Int.mul_ne_zero (by decide) hone⟩

/-- A phase in [0, 1) plus a number is finite exactly when the number is (R116 item 6). -/
theorem finite_fadd_phase {p x : F} (hp : inUnit p) : (fadd p x).finite = x.finite := by
  obtain ⟨a, ha, rfl⟩ := inUnit_iff.1 hp
  cases x with
  | nan => rfl
  | inf s => rfl
  | fin s n => exact fadd_phase_of_finite ha rfl

section Output

variable {s : State} {i : Fin 4} {m : F}

/-- Amplitude times gate is finite and no larger than the amplitude. -/
theorem amp_mul_gate (ha : (s.cfg.amp.get i).finite = true)
    (he : (s.op.get i).env = F.zero ∨ (s.op.get i).env = F.one) :
    (fmul (s.cfg.amp.get i) (s.op.get i).env).finite = true ∧
      (fmul (s.cfg.amp.get i) (s.op.get i).env).abs.le (s.cfg.amp.get i).abs = true := by
  have hgate : (s.op.get i).env.finite = true ∧ (s.op.get i).env.abs.le F.one = true := by
    obtain he | he := he <;> rw [he] <;> decide
  exact abs_fmul_le ha hgate.1 hgate.2

/-- A NaN sine makes the output NaN, whatever the amplitude and the gate. -/
theorem rawOutput_of_sine_nan (h : sinturn s.cfg.sinturn (sineArg i m s) = .nan) : rawOutput i m s = .nan := by
  rw [rawOutput, h, fmul_nan]

/-- Any other sine has magnitude at most 1, so the output is finite and no larger than the amplitude (R116 item 5). -/
theorem rawOutput_of_sine_ne_nan (ha : (s.cfg.amp.get i).finite = true)
    (he : (s.op.get i).env = F.zero ∨ (s.op.get i).env = F.one)
    (h : sinturn s.cfg.sinturn (sineArg i m s) ≠ .nan) :
    (rawOutput i m s).finite = true ∧ (rawOutput i m s).abs.le (s.cfg.amp.get i).abs = true := by
  obtain ⟨hgain, hgainLe⟩ := amp_mul_gate ha he
  obtain ⟨hsine, hsineLe⟩ := (sinturn_cases _ _).resolve_left h
  obtain ⟨hout, houtLe⟩ := abs_fmul_le hgain hsine hsineLe
  exact ⟨hout, F.le_trans houtLe hgainLe⟩

/-- With the gate closed the output is a zero unless the sine is NaN (R116 item 1). -/
theorem rawOutput_of_gate_closed (ha : (s.cfg.amp.get i).finite = true) (he : (s.op.get i).env = F.zero)
    (h : sinturn s.cfg.sinturn (sineArg i m s) ≠ .nan) : ∃ t, rawOutput i m s = F.zeroOf t := by
  obtain ⟨hsine, -⟩ := (sinturn_cases _ _).resolve_left h
  rw [rawOutput, he, F.zero, fmul_zeroOf ha, zeroOf_fmul hsine]
  exact ⟨_, rfl⟩

/-- Where the guard fires the output is `+0` and the flag is set (R112). -/
theorem advance_of_guard (h : (rawOutput i m s).finite = false) :
    ((advance i m s).op.get i).out = F.zero ∧ ((advance i m s).op.get i).diag = true := by
  rw [advance_get_self, h, guarded_of_not_finite h, Bool.not_false, Bool.or_true]
  exact ⟨rfl, rfl⟩

end Output

/-- Settles O29: the sine is the one factor of the output that can be non-finite, and S2 makes it NaN on a non-finite argument. -/
theorem guardFiresExactlyOnNanSine : Obligations.GuardFiresExactlyOnNanSine := by
  intro s i m
  obtain ⟨hidx, hidx0⟩ := modIdx_finite_nonzero
  refine ⟨fun ha he => ⟨fun hfire => ?_, fun hnan => ?_⟩, fmul_not_finite hidx hidx0, fun hp => ?_⟩
  · by_contra hsine
    obtain ⟨hfin, -⟩ := rawOutput_of_sine_ne_nan ha he hsine
    exact absurd (hfire.symm.trans hfin) Bool.false_ne_true
  · rw [rawOutput_of_sine_nan hnan]
    rfl
  · have harg : (sineArg i m s).finite = (fmul (i2f 4) m).finite := finite_fadd_phase hp
    refine ⟨by rw [harg], fun hmod => ?_⟩
    have hsine := (sinturn_ok s.cfg.sinturn).s2 (sineArg i m s) (harg.trans hmod)
    have hfire : (rawOutput i m s).finite = false := by
      rw [rawOutput_of_sine_nan hsine]
      rfl
    exact ⟨hfire, advance_of_guard hfire⟩

/-- Settles O30: the guard replaces a NaN output by `+0`, and every other output is bounded before the guard. -/
theorem outputIsBoundedByAmplitude : Obligations.OutputIsBoundedByAmplitude := by
  intro s i m ha he
  rw [advance_get_self]
  by_cases hsine : sinturn s.cfg.sinturn (sineArg i m s) = .nan
  · rw [rawOutput_of_sine_nan hsine]
    exact F.abs_zero_le ha
  · obtain ⟨hfin, hle⟩ := rawOutput_of_sine_ne_nan ha he hsine
    rwa [guarded_of_finite hfin]

/-- Settles O31: the guard replaces a NaN output by `+0`, and every other output is a zero before the guard. -/
theorem closedGateOutputsZero : Obligations.ClosedGateOutputsZero := by
  intro s i m ha he
  rw [advance_get_self, F.isZero_iff]
  by_cases hsine : sinturn s.cfg.sinturn (sineArg i m s) = .nan
  · rw [rawOutput_of_sine_nan hsine]
    exact ⟨false, rfl⟩
  · obtain ⟨t, ht⟩ := rawOutput_of_gate_closed ha he hsine
    rw [ht]
    exact ⟨t, rfl⟩

end Sys2Proof.Machine

/-! # Routing (42_routing.md)

A zero weight times a finite output is a zero, and adding a zero keeps every partial sum, since a sum that begins at `+0` is never `−0`.
So the terms that R142 forces to zero drop out of the sum of R140. -/

namespace Sys2Proof.Machine

/-- Settles O32: the fold over the four indices, written out. -/
theorem modinIsTheAscendingSum : Obligations.ModinIsTheAscendingSum := fun _ _ => rfl

/-- A term whose weight is a zero and whose output is finite keeps the accumulator, unless that one is `−0` (R144 item 1). -/
theorem fadd_fmul_of_isZero {a w x : F} (ha : a ≠ F.zeroOf true) (hw : w.isZero = true) (hx : x.finite = true) :
    fadd a (fmul w x) = a := by
  obtain ⟨t, rfl⟩ := F.isZero_iff.1 hw
  rw [zeroOf_fmul hx, fadd_zeroOf ha]

/-- An operator at or after `i` adds nothing to row `i` of a strictly lower-triangular matrix (R142). -/
theorem fadd_term_of_le {s : State} (hw : wfRouting s.cfg = true) (ho : outputsFinite s) {a : F} {i j : Fin 4}
    (hij : i ≤ j) (ha : a ≠ F.zeroOf true) : fadd a (fmul ((s.cfg.w.get i).get j) (s.op.get j).out) = a := by
  obtain ⟨-, hlt | hzero⟩ := wfRouting_entry hw i j
  · exact absurd hlt (not_lt.2 hij)
  · exact fadd_fmul_of_isZero ha hzero (ho j)

/-- A run of such terms keeps the accumulator. -/
theorem foldl_terms_of_le {s : State} (hw : wfRouting s.cfg = true) (ho : outputsFinite s) {a : F} {i : Fin 4}
    (ha : a ≠ F.zeroOf true) (js : List (Fin 4)) (hle : ∀ j ∈ js, i ≤ j) :
    js.foldl (fun acc j => fadd acc (fmul ((s.cfg.w.get i).get j) (s.op.get j).out)) a = a := by
  induction js with
  | nil => rfl
  | cons j js ih =>
    rw [List.foldl_cons, fadd_term_of_le hw ho (hle j List.mem_cons_self) ha]
    exact ih fun j' hj' => hle j' (List.mem_cons_of_mem j hj')

/-- Settles O33: in row `i` the terms of the operators from `i` on keep the sum of the terms before them. -/
theorem modinReadsOnlyEarlierOperators : Obligations.ModinReadsOnlyEarlierOperators := by
  intro s hw ho
  have hstart : F.zero ≠ F.zeroOf true := by decide
  refine ⟨?row0, ?row1, ?row2, ?row3⟩
  case row0 => exact foldl_terms_of_le hw ho hstart [0, 1, 2, 3] (by decide)
  case row1 => exact foldl_terms_of_le hw ho (fadd_ne_negZero hstart) [1, 2, 3] (by decide)
  case row2 => exact foldl_terms_of_le hw ho (fadd_ne_negZero (fadd_ne_negZero hstart)) [2, 3] (by decide)
  case row3 => exact foldl_terms_of_le hw ho (fadd_ne_negZero (fadd_ne_negZero (fadd_ne_negZero hstart))) [3] (by decide)

end Sys2Proof.Machine

/-! # Mixer (43_mixer.md)

The guard on the mix, then silence: a closed gate leaves a zero in every output, zeros mix to `+0`, and so each tick renders `+0`. -/

namespace Sys2Proof.Machine

/-! ### MIXSUM as a whole (R160, R161) -/

theorem mixsum_eq (s : State) :
    mixsum s =
      { s with
        mixdiag := s.mixdiag || !(rawMix s).finite
        diags := reportOnce (!(rawMix s).finite) s.mixdiag (.mixnf (rawMix s)) s.diags } := rfl

/-- A finite mix, and a non-finite one once the flag is set, leaves the state as it is (R161, R243). -/
theorem mixsum_eq_self {s : State} (h : (rawMix s).finite = true ∨ s.mixdiag = true) : mixsum s = s := by
  have hflag : (s.mixdiag || !(rawMix s).finite) = s.mixdiag := by
    obtain h | h := h <;> simp [h]
  have hstream : reportOnce (!(rawMix s).finite) s.mixdiag (.mixnf (rawMix s)) s.diags = s.diags := by
    obtain h | h := h <;> simp [reportOnce, h]
  rw [mixsum_eq, hflag, hstream]

/-- Settles O34: the guard replaces a non-finite mix by `+0`, and only its first firing writes: the flag and one record. -/
theorem mixsumScalesTheSumAndGuards : Obligations.MixsumScalesTheSumAndGuards := by
  intro s acc y
  have hy : rawMix s = y := rfl
  refine ⟨fun hfin => ⟨guarded_of_finite hfin, mixsum_eq_self (.inl hfin)⟩,
    fun hfin hdiag => ⟨guarded_of_not_finite hfin, mixsum_eq_self (.inr hdiag)⟩,
    fun hfin hdiag => ⟨guarded_of_not_finite hfin, ?_⟩⟩
  rw [mixsum_eq, hy, hfin, hdiag]
  rfl

/-! ### Sums of zeros (R160, R163) -/

theorem outputs_get (s : State) (i : Fin 4) : (outputs s).get i = (s.op.get i).out := by
  match i with
  | 0 | 1 | 2 | 3 => rfl

/-- Finite weights on zeros sum to `+0`, whatever the signs, since the sum begins at `+0` (R144 item 1). -/
theorem weightedSum_of_isZero {w x : Four F} (hw : ∀ j, (w.get j).finite = true) (hx : ∀ j, (x.get j).isZero = true) :
    weightedSum w x = F.zero := by
  refine List.foldl_fixed' (fun j => ?_) indices
  obtain ⟨t, ht⟩ := F.isZero_iff.1 (hx j)
  rw [ht, fmul_zeroOf (hw j), fadd_zeroOf (by decide)]

/-- Outputs that are zeros mix to `+0` under a scale with a clear sign bit (R163 item 2). -/
theorem mixSample_of_isZero {s : State} (hwf : wfCfg s.cfg = true) (hsign : s.cfg.scale.sign = false)
    (hout : ∀ i, (s.op.get i).out.isZero = true) : mixSample s = F.zero := by
  obtain ⟨-, -, hops, hscale, -⟩ := (wellFormedExactlyWhenEveryCheckPasses s.cfg).1 hwf
  have hsum : weightedSum s.cfg.mix (outputs s) = F.zeroOf false :=
    weightedSum_of_isZero (fun i => (hops i).1) fun i => (outputs_get s i).symm ▸ hout i
  rw [mixSample, rawMix, hsum, fmul_zeroOf hscale, hsign]
  rfl

/-! ### Silence (R163 item 2, R211) -/

/-- The voice has a well-formed configuration whose SCALE has a clear sign bit, and every gate is closed (R33, R163 item 2). -/
structure Silent (s : State) : Prop where
  wf : wfCfg s.cfg = true
  scale : s.cfg.scale.sign = false
  gates : ∀ i, (s.op.get i).env = F.zero

theorem Silent.amp_finite {s : State} (h : Silent s) (i : Fin 4) : (s.cfg.amp.get i).finite = true := by
  obtain ⟨-, -, hops, -⟩ := (wellFormedExactlyWhenEveryCheckPasses s.cfg).1 h.wf
  obtain ⟨-, hamp, -⟩ := hops i
  exact hamp

theorem Silent.advance {s : State} (h : Silent s) (i : Fin 4) (m : F) : Silent (advance i m s) :=
  ⟨h.wf, h.scale, fun j => (advance_env i j m s).trans (h.gates j)⟩

/-- Operators run in turn leave a zero in the output of each of them, and keep a zero in the others. -/
theorem Silent.foldl_runOperator_out {s : State} (h : Silent s) {i : Fin 4} (js : List (Fin 4))
    (hi : i ∈ js ∨ (s.op.get i).out.isZero = true) : ((js.foldl runOperator s).op.get i).out.isZero = true := by
  induction js generalizing s with
  | nil => exact hi.resolve_left List.not_mem_nil
  | cons j js ih =>
    refine ih (h.advance j _) ?_
    by_cases hij : i = j
    · subst hij
      exact .inr (closedGateOutputsZero s i _ (h.amp_finite i) (h.gates i))
    · rw [runOperator, advance_get_ne _ _ hij]
      exact hi.imp_left fun hmem => (List.mem_cons.1 hmem).resolve_left hij

theorem Silent.runOperators {s : State} (h : Silent s) : Silent (runOperators s) :=
  runOperators_induct (fun _ i m ht => ht.advance i m) h

/-- A tick of a silent voice renders `+0`. -/
theorem Silent.sample {s : State} (h : Silent s) : mixSample (Machine.runOperators s) = F.zero :=
  mixSample_of_isZero h.runOperators.wf h.runOperators.scale fun i =>
    h.foldl_runOperator_out indices (.inl (by revert i; decide))

theorem Silent.tick {s : State} (h : Silent s) (k : Nat) : Silent (tick s k) :=
  ⟨h.runOperators.wf, h.runOperators.scale, h.runOperators.gates⟩

theorem Silent.ticks_samples {s : State} (h : Silent s) (ks : List Nat) :
    (ks.foldl Machine.tick s).samples = s.samples ++ List.replicate ks.length F.zero := by
  induction ks generalizing s with
  | nil => simp
  | cons k ks ih =>
    rw [List.foldl_cons, ih (h.tick k), tick_samples, h.sample, List.append_assoc]
    rfl

/-- Settles O42: DRAIN of an empty queue changes nothing, and every tick keeps the voice silent. -/
theorem idleVoiceRendersSilence : Obligations.IdleVoiceRendersSilence := by
  intro s hwf hgates hcq hsign
  have hdrain : drain s = .next s := by
    rw [drain, hcq]
    rfl
  have hsilent : Silent { s with samples := [] } := ⟨hwf, hsign, hgates⟩
  refine ⟨render s, block_of_drain hdrain, ?_⟩
  calc (render s).samples = [] ++ List.replicate (List.range s.cfg.blockLen).length F.zero := hsilent.ticks_samples _
    _ = List.replicate s.cfg.blockLen F.zero := by rw [List.length_range, List.nil_append]

end Sys2Proof.Machine

/-! # Voice control (44_voice_control.md)

Scaling by a power of two, the pitch of an octave, what each command answers, then the statements they settle. -/

namespace Sys2Proof

/-! ### Scaling by a power of two (R188 item 2) -/

theorem fmul_comm (a b : F) : fmul a b = fmul b a := by
  match a, b with
  | .nan, .nan | .nan, .inf _ | .nan, .fin _ _ | .inf _, .nan | .fin _ _, .nan => rfl
  | .inf s, .inf t | .inf s, .fin t _ | .fin s _, .inf t => rw [fmul, fmul, bne_comm]
  | .fin s m, .fin t n => rw [fmul_fin, fmul_fin, bne_comm, Nat.mul_comm]

theorem magUnits_pos {p : Nat} (h : 0 < p) : 0 < magUnits p :=
  Nat.pos_of_ne_zero fun hz => h.ne' (magUnits_eq_zero.1 hz)

/-- A normal pattern moved `k` exponents up has 2^k times the magnitude. -/
theorem magUnits_add_mul_fracMod {p : Nat} (hp : fracMod ≤ p) (k : Nat) :
    magUnits (p + k * fracMod) = 2 ^ k * magUnits p := by
  have hf : 0 < fracMod := by decide
  have he : 1 ≤ p / fracMod := (Nat.one_le_div_iff hf).2 hp
  unfold magUnits
  rw [Nat.add_mul_div_right _ _ hf, Nat.add_mul_mod_self_right, if_neg (by omega), if_neg (by omega),
    show p / fracMod + k - 1 = k + (p / fracMod - 1) by omega, pow_add]
  ring

/-- `pow2 n` as a pattern: 2^n times the units of 1. -/
theorem pow2_nat {n : Nat} (h : n ≤ 1023) : ∃ m : Fin infMag, magUnits m = 2 ^ n * unitsOne ∧ pow2 n = .fin false m := by
  have hpat : ((n : Int) + 1023).toNat * fracMod = 0x3FF0000000000000 + n * fracMod := by
    unfold fracMod
    omega
  have hlt : 0x3FF0000000000000 + n * fracMod < infMag := by
    unfold fracMod infMag
    omega
  refine ⟨⟨_, hlt⟩, ?_, by rw [pow2, hpat, ofMag_of_lt hlt]⟩
  rw [magUnits_add_mul_fracMod (by decide), magUnits_one]

/-- Multiplication by 2^n moves a normal pattern `n` exponents up, past the largest one to the infinity. -/
theorem fmul_pow2_ofMag {n p : Nat} (hn : n ≤ 1023) (hp : fracMod ≤ p) (s : Bool) :
    fmul (pow2 n) (ofMag s p) = ofMag s (p + n * fracMod) := by
  obtain ⟨m, hm, hpow⟩ := pow2_nat hn
  rw [hpow]
  rcases Nat.lt_or_ge p infMag with hlt | hge
  · have hprod : magUnits m * magUnits p = magUnits (p + n * fracMod) * unitsOne := by
      rw [hm, magUnits_add_mul_fracMod hp]
      ring
    rw [ofMag_of_lt hlt, fmul_fin, hprod, roundMag_exact unitsOne_pos, Bool.false_bne]
  · have hnz : m.val ≠ 0 := by
      rw [ne_eq, ← magUnits_eq_zero, hm]
      exact (Nat.mul_pos (Nat.two_pow_pos n) unitsOne_pos).ne'
    rw [ofMag_of_ge hge, ofMag_of_ge (by omega), fmul, if_neg hnz, Bool.false_bne]

/-- A quotient of a normal rounding moves `n` exponents up with its dividend. -/
theorem roundMag_quotient_scale {p d : Nat} (hd : 0 < d) (hp : fracMod ≤ p) (h : 2 ^ 52 ≤ magUnits p * unitsOne / d)
    (n : Nat) : roundMag (magUnits (p + n * fracMod) * unitsOne) d = roundMag (magUnits p * unitsOne) d + n * fracMod := by
  rw [magUnits_add_mul_fracMod hp, Nat.mul_assoc, roundMag_scale hd h]

/-- A fraction of at least 2^52 units is rounded to a normal pattern. -/
theorem fracMod_le_roundMag {num den : Nat} (hd : 0 < den) (h : 2 ^ 52 ≤ num / den) : fracMod ≤ roundMag num den := by
  have hmin : magUnits fracMod = 2 ^ 52 := by decide
  calc fracMod = roundMag (magUnits fracMod * 1) 1 := (roundMag_exact Nat.one_pos).symm
    _ ≤ roundMag num den := roundMag_mono Nat.one_pos hd (by
      rw [hmin, Nat.mul_one, Nat.mul_one]
      exact (Nat.le_div_iff_mul_le hd).1 h)

end Sys2Proof

namespace Sys2Proof.Machine

/-! ### The pitch of A4 and of the octaves above it (R180, R188) -/

/-- Twelve keys are exactly one octave. -/
theorem octaves_of_twelve_mul {n : Nat} (hn : n ≤ 1015) : octaves (69 + 12 * n) = i2f n := by
  obtain ⟨p, hp, hnum⟩ := i2f_nat (12 * n) (by omega)
  obtain ⟨d, hd, hden⟩ := i2f_nat 12 (by decide)
  obtain ⟨q, hq, hquot⟩ := i2f_nat n (by omega)
  have hpos : 0 < 12 * unitsOne := Nat.mul_pos (by decide) unitsOne_pos
  have hd0 : d.val ≠ 0 := by
    rw [ne_eq, ← magUnits_eq_zero, hd]
    exact hpos.ne'
  have hround : magUnits p * unitsOne = magUnits q * (12 * unitsOne) := by
    rw [hp, hq]
    ring
  calc octaves (69 + 12 * n) = fdiv (i2f (12 * n : Nat)) (i2f (12 : Nat)) := by
        rw [octaves, refKey, semitones, add_sub_cancel_left]
        rfl
    _ = i2f n := by
        rw [hnum, hden, fdiv_fin _ _ _ hd0, hd, hround, roundMag_exact hpos, ofMag_of_lt q.isLt, hquot]
        rfl

/-- The magnitude pattern of 440.0, the frequency of A4 (R7). -/
abbrev refMag : Nat := 0x407B800000000000

theorem refPitch_eq : refPitch = ofMag false refMag := i2f_440.trans (ofMag_of_lt (by decide)).symm

/-- The frequency of an octave above A4, before the division by SR. -/
theorem fmul_refPitch_pow2 {n : Nat} (hn : n ≤ 1015) :
    fmul refPitch (pow2 n) = ofMag false (refMag + n * fracMod) := by
  rw [fmul_comm, refPitch_eq, fmul_pow2_ofMag (by omega) (by decide)]

/-- 440 over a finite sample rate is at least 2^52 units, so its rounding is normal or an overflow. -/
theorem refPitch_quotient_normal {d : Fin infMag} (hd : 0 < d.val) :
    2 ^ 52 ≤ magUnits refMag * unitsOne / magUnits d := by
  have hmax : 2 ^ 52 * magUnits infMag ≤ magUnits refMag * unitsOne := by decide +kernel
  rw [Nat.le_div_iff_mul_le (magUnits_pos hd)]
  exact (Nat.mul_le_mul_left _ (magUnits_mono d.isLt.le)).trans hmax

/-- The quotient by a positive finite sample rate, an octave above A4: `n` exponents above that of A4. -/
theorem fdiv_octave {n : Nat} (hn : n ≤ 1015) {d : Fin infMag} (hd : 0 < d.val) :
    fdiv (ofMag false (refMag + n * fracMod)) (.fin false d) =
      ofMag false (roundMag (magUnits refMag * unitsOne) (magUnits d) + n * fracMod) := by
  have hlt : refMag + n * fracMod < infMag := by
    unfold refMag fracMod infMag
    omega
  rw [ofMag_of_lt hlt, fdiv_fin _ _ _ hd.ne',
    roundMag_quotient_scale (magUnits_pos hd) (by decide) (refPitch_quotient_normal hd)]
  rfl

/-- The pitch of an octave above A4 is that octave's frequency over SR. -/
theorem pitch_octave (c : Cfg) {n : Nat} (hn : n ≤ 1015) :
    pitch c (69 + 12 * n) = fdiv (fmul refPitch (pow2 n)) c.sr := by
  have hexp : exp2 c.exp2 (i2f n) = pow2 n :=
    (exp2_ok c.exp2).e1 _ n (toInt?_i2f (by omega)) (by omega) (by omega)
  unfold pitch
  rw [octaves_of_twelve_mul hn, hexp]

/-- Settles O22: A4 is its own octave 0, and EXP2 of it is 1.0. -/
theorem pitchOfA4IsReferenceOverRate : Obligations.PitchOfA4IsReferenceOverRate := by
  intro c
  have hone : pow2 (0 : Nat) = F.one := by decide
  have h := pitch_octave c (n := 0) (by decide)
  rwa [hone, fmul_one refPitch_finite] at h

/-- Settles O23: the frequency of an octave is exact and the quotient by SR is normal, so the rounding commutes with 2^n. -/
theorem octavesAboveA4AreExact : Obligations.OctavesAboveA4AreExact := by
  intro c n hsr hsr0 hn
  obtain hinf | ⟨d, hd, hrate⟩ := F.pos_cases hsr0
  · rw [hinf] at hsr
    exact absurd hsr nofun
  have hnormal := fracMod_le_roundMag (magUnits_pos hd) (refPitch_quotient_normal hd)
  have hA4 : pitch c 69 = ofMag false (roundMag (magUnits refMag * unitsOne) (magUnits d)) := by
    have h := pitch_octave c (n := 0) (by decide)
    rwa [fmul_refPitch_pow2 (by decide), hrate, fdiv_octave (by decide) hd, Nat.zero_mul, Nat.add_zero] at h
  rw [pitch_octave c hn, fmul_refPitch_pow2 hn, hrate, fdiv_octave hn hd, hA4, fmul_pow2_ofMag (by omega) hnormal]

/-- Settles O24: the octave number, EXP2 of it, the product with 440.0 and the quotient by SR are each monotone. -/
theorem pitchIsMonotone : Obligations.PitchIsMonotone :=
  fun _ _ _ hsr hsr0 h1 h h2 => pitch_mono hsr hsr0 h1 h h2

/-- Settles O25: between the ends of the key range, which R49 checks, the pitch and the increments are monotone. -/
theorem pitchIsFiniteAndPositive : Obligations.PitchIsFiniteAndPositive := by
  intro c k hwf hrange hlo hhi
  obtain ⟨hfin, hpos⟩ := pitch_finite_pos hwf hrange hlo hhi
  exact ⟨hfin, hpos, increment_finite_nonneg hwf hrange hlo hhi⟩

/-! ### What each command answers (R181 to R184) -/

theorem inKeyRange_iff {c : Cfg} {k : Key} : inKeyRange c k = true ↔ c.keyMin ≤ keyInt k ∧ keyInt k ≤ c.keyMax := by
  rw [inKeyRange, Bool.and_eq_true, decide_eq_true_eq, decide_eq_true_eq]

theorem exec_nop (s : State) : exec .nop s = .next s := rfl

theorem exec_unknown (op : BitVec 8) (s : State) : exec (.unknown op) s = .next s := rfl

section Commands

variable {s : State} {k : Key}

theorem exec_noteOn_of_inKeyRange (h : inKeyRange s.cfg k = true) : exec (.noteOn k) s = .next (noteOn k s) := by
  rw [exec, execNoteOn, if_pos h]

theorem exec_noteOn_of_not_inKeyRange (h : inKeyRange s.cfg k = false) : exec (.noteOn k) s = .next (markRefused s) := by
  rw [exec, execNoteOn, h, if_neg Bool.false_ne_true]

theorem exec_noteOff_of_eq (h : k = s.key) : exec (.noteOff k) s = .next (noteOff s) := by
  rw [exec, execNoteOff, if_pos h]

theorem exec_noteOff_of_ne (h : k ≠ s.key) : exec (.noteOff k) s = .next s := by
  rw [exec, execNoteOff, if_neg h]

end Commands

/-- Settles O16: an accepted NOTE_ON is `noteOn_eq`, and R180 written out is the pitch; a refused one only sets the mark. -/
theorem noteOnStartsTheNoteOrMarksRefused : Obligations.NoteOnStartsTheNoteOrMarksRefused := by
  refine fun s k => ⟨fun hlo hhi => ?_, fun hout => ?_⟩
  · rw [exec_noteOn_of_inKeyRange (inKeyRange_iff.2 ⟨hlo, hhi⟩), noteOn_eq, pitch]
    rfl
  · have hrange : inKeyRange s.cfg k = false := by
      rw [← Bool.not_eq_true, inKeyRange_iff]
      omega
    exact exec_noteOn_of_not_inKeyRange hrange

/-- Settles O17: an accepted NOTE_OFF is `noteOff_eq`. -/
theorem noteOffStopsTheCurrentNoteOnly : Obligations.NoteOffStopsTheCurrentNoteOnly :=
  fun s _ => ⟨fun h => (exec_noteOff_of_eq h).trans (congrArg _ (noteOff_eq s)), exec_noteOff_of_ne⟩

/-- Settles O18: such a word decodes to NOP when OP is zero and to UNKNOWN when OP is 3 or more. -/
theorem nopAndUnknownWordsChangeNothing : Obligations.NopAndUnknownWordsChangeNothing := by
  refine ⟨exec_nop, fun s op => exec_unknown op s, fun s op rsv key h1 h2 => ?_⟩
  by_cases h0 : op = 0
  · rw [decode_of_opField_zero (by rw [opField_cmdWord, h0])]
    exact exec_nop s
  · have h3 : 3 ≤ op.toNat := by bv_omega
    rw [decode_of_three_le_opField (by rwa [opField_cmdWord])]
    exact exec_unknown _ s

/-! ### The note state machine (R185, R186) -/

theorem sounding_of_env {s : State} {v : F} (h : s.op.x0.env = v) : sounding s = v.eq F.one := by rw [sounding, h]

theorem idle_of_env {s : State} {v : F} (h : s.op.x0.env = v) : idle s = v.eq F.zero := by rw [idle, h]

theorem sounding_noteOn (k : Key) (s : State) : sounding (noteOn k s) = true :=
  (sounding_of_env (v := F.one) rfl).trans (by decide)

theorem idle_noteOff (s : State) : idle (noteOff s) = true :=
  (idle_of_env (v := F.zero) rfl).trans (by decide)

/-- Where the gates hold 0.0 or 1.0 the voice is in exactly one of the two note states (R33). -/
theorem sounding_eq_not_idle {s : State} (h : gatesAgree s) : sounding s = !idle s := by
  obtain ⟨-, henv | henv⟩ := h 0 <;> rw [sounding_of_env henv, idle_of_env henv] <;> decide

/-- Settles O20: each command's next state is known, and its gates are all open, all closed, or as before. -/
theorem noteStateMachineTransitions : Obligations.NoteStateMachineTransitions := by
  refine fun s hgates => ⟨sounding_eq_not_idle hgates, fun k t hk h => ?on, fun k t hk h => ?refused, fun k t hk h => ?off,
    fun k t hk h => ?stale, fun op t h => ?nothing⟩
  case on =>
    cases (exec_noteOn_of_inKeyRange hk).symm.trans h
    exact ⟨sounding_noteOn k s, rfl, rfl⟩
  case refused =>
    cases (exec_noteOn_of_not_inKeyRange hk).symm.trans h
    exact ⟨rfl, rfl, rfl, rfl⟩
  case off =>
    cases (exec_noteOff_of_eq hk).symm.trans h
    exact ⟨idle_noteOff s, rfl, rfl⟩
  case stale =>
    cases (exec_noteOff_of_ne hk).symm.trans h
    exact ⟨rfl, rfl, rfl⟩
  case nothing =>
    obtain h | h := h <;> cases h <;> exact ⟨rfl, rfl, rfl⟩

/-- DRAIN of a queue whose head is the word of a command: the command, then the rest of the queue (R212). -/
theorem drainWords_encode {i : Instr} (hwf : i.wf = true) {ws : List Word} {s t : State}
    (h : exec i { s with cq := ws } = .next t) : drainWords (encode i :: ws) s = drainWords ws t := by
  rw [drainWords, decodeOfEncodeIsTheCommand i hwf, h, andThen_next]

/-- Settles O21: the second NOTE_ON sets KEY, so the NOTE_OFF of the first key is ignored. -/
theorem lastNoteHasPriority : Obligations.LastNoteHasPriority := by
  intro s k1 k2 h1 h2 hne hcq
  refine ⟨{ noteOn k2 (noteOn k1 s) with cq := [] }, ?_, rfl, sounding_noteOn k2 (noteOn k1 s), rfl, rfl⟩
  rw [drain, hcq, drainWords_encode rfl (exec_noteOn_of_inKeyRange ?first),
    drainWords_encode rfl (exec_noteOn_of_inKeyRange ?second), drainWords_encode rfl (exec_noteOff_of_ne ?stale)]
  case first => exact h1
  case second => exact h2
  case stale => exact hne
  rfl

/-! ### The ticks (R115, R187, R282) -/

/-- A block's ticks open and close no gate (R115). -/
@[simp] theorem render_env (s : State) (i : Fin 4) : ((render s).op.get i).env = (s.op.get i).env :=
  ticks_induct (P := fun t => (t.op.get i).env = (s.op.get i).env) (fun t j m h => (advance_env j i m t).trans h)
    (fun _ _ h => h) (List.range s.cfg.blockLen) (s := { s with samples := [] }) rfl

/-- Settles O37: what each tick keeps, the block's ticks keep. -/
theorem ticksChangeNoVoiceState : Obligations.TicksChangeNoVoiceState :=
  fun s => ⟨render_key s, render_pinc s, render_env s, render_refused s, render_cfg s, render_cq s, render_host s⟩

end Sys2Proof.Machine

/-! # The render loop (45_render_loop.md)

DRAIN is a fold of `applyWord` over the queue, so BLOCK is the ticks from the state that fold leaves.
The samples and the buffers after the first ticks are read off the ticks themselves; then the statements, and the steps of the host's script. -/

namespace Sys2Proof.Machine

/-- Settles O35: the operators' runs and the end of the tick, written out. -/
theorem tickFollowsTheSchedule : Obligations.TickFollowsTheSchedule := fun _ _ => rfl

/-! ### DRAIN and BLOCK (R211, R212) -/

@[simp] theorem applyWord_host (s : State) (w : Word) : (applyWord s w).host = s.host :=
  applyWord_induct (P := fun t => t.host = s.host) w rfl (fun _ _ => rfl) rfl rfl

/-- Each queued word leaves CQ before it is applied, and no command reads CQ, so DRAIN is a fold over the words. -/
theorem drainWords_eq_foldl (ws : List Word) (s : State) :
    drainWords ws { s with cq := ws } = .next { ws.foldl applyWord s with cq := [] } := by
  induction ws generalizing s with
  | nil => rfl
  | cons w ws ih =>
    rw [drainWords, exec_eq_next, andThen_next]
    exact (congrArg (drainWords ws) (applyWord_cq s w ws)).trans (ih (applyWord s w))

/-- Settles O36, by induction on the queue. -/
theorem drainAppliesEveryWordInOrder : Obligations.DrainAppliesEveryWordInOrder := fun s => drainWords_eq_foldl s.cq s

/-- DRAIN keeps the configuration and the host's script (R48, R212). -/
theorem drain_keeps {s u : State} (h : drain s = .next u) : u.cfg = s.cfg ∧ u.host = s.host :=
  (drain_induct (P := fun t => t.cfg = s.cfg ∧ t.host = s.host)
    (fun t w ⟨hcfg, hhost⟩ => ⟨(applyWord_cfg t w).trans hcfg, (applyWord_host t w).trans hhost⟩) (fun _ _ => id) ⟨rfl, rfl⟩ h).1

theorem block_eq_render (s : State) : block s = .next (render { s.cq.foldl applyWord s with cq := [] }) :=
  block_of_drain (drainAppliesEveryWordInOrder s)

/-- A block is the ticks from the state DRAIN leaves. -/
theorem block_cases {s t : State} (h : block s = .next t) : ∃ u, drain s = .next u ∧ t = render u := by
  cases (block_eq_render s).symm.trans h
  exact ⟨_, drainAppliesEveryWordInOrder s, rfl⟩

/-- The ticks of a block, their number named (R211, R214). -/
theorem render_of_blockLen {u : State} {n : Nat} (h : u.cfg.blockLen = n) :
    render u = { (List.range n).foldl tick { u with samples := [] } with keepAlive := some true } := by
  subst h
  rfl

/-! ### The samples of a block (R210, R218) -/

/-- The sample of tick `k` when ticks `0..k-1` have run from `s`. -/
def tickSample (s : State) (k : Nat) : F := mixSample (runOperators ((List.range k).foldl tick s))

theorem ticks_range_succ (n : Nat) (s : State) :
    (List.range (n + 1)).foldl tick s = tick ((List.range n).foldl tick s) n := by
  rw [List.range_succ, List.foldl_append]
  rfl

theorem ticks_range_samples (n : Nat) (s : State) :
    ((List.range n).foldl tick s).samples = s.samples ++ (List.range n).map (tickSample s) := by
  induction n with
  | zero => exact (List.append_nil _).symm
  | succ n ih =>
    rw [ticks_range_succ, tick_samples, ih, List.range_succ, List.map_append, List.append_assoc]
    rfl

theorem render_samples (u : State) :
    (render u).samples = (List.range u.cfg.blockLen).map (tickSample { u with samples := [] }) :=
  ticks_range_samples u.cfg.blockLen { u with samples := [] }

/-- Settles O39: BLOCK is the ticks after DRAIN, which leaves CQ empty, and each tick renders one sample. -/
theorem blockDrainsThenRunsItsTicks : Obligations.BlockDrainsThenRunsItsTicks := by
  intro s
  obtain ⟨hcfg, -⟩ := drain_keeps (drainAppliesEveryWordInOrder s)
  refine ⟨_, block_eq_render s, render_of_blockLen (congrArg Cfg.blockLen hcfg), render_cq _, ?_⟩
  rw [render_samples, List.length_map, List.length_range, hcfg]

/-- Settles O40: entry `k` of the block's samples is the sample of tick `k`. -/
theorem blockSamplesAreItsTicks : Obligations.BlockSamplesAreItsTicks := by
  intro s u t hu ht k hk
  cases (block_of_drain hu).symm.trans ht
  obtain ⟨hcfg, -⟩ := drain_keeps hu
  rw [render_samples, hcfg, List.getElem?_map, List.getElem?_range hk]
  rfl

/-! ### The buffers after a block (R213) -/

/-- What the writes of elements `0..n-1` make of a channel: its first `n` elements are the written ones. -/
def writeChannel (f : Nat → HostSample) (n : Nat) (channel : List HostSample) : List HostSample :=
  (List.range n).foldl (fun c k => c.set k (f k)) channel

theorem writeChannel_zero (f : Nat → HostSample) : writeChannel f 0 = id := rfl

theorem writeChannel_succ (f : Nat → HostSample) (n : Nat) (channel : List HostSample) :
    writeChannel f (n + 1) channel = (writeChannel f n channel).set n (f n) := by
  rw [writeChannel, List.range_succ, List.foldl_append]
  rfl

theorem writeChannel_eq_append_drop (f : Nat → HostSample) {n : Nat} {channel : List HostSample} (h : n ≤ channel.length) :
    writeChannel f n channel = (List.range n).map f ++ channel.drop n := by
  induction n with
  | zero => rfl
  | succ n ih =>
    have hset : (channel.drop n).set 0 (f n) = f n :: channel.drop (n + 1) := by
      rw [List.drop_eq_getElem_cons h, List.set_cons_zero]
    rw [writeChannel_succ, ih (Nat.le_of_succ_le h), List.range_succ]
    simp [hset]

/-- A channel written from end to end holds nothing of what it held before. -/
theorem writeChannel_length (f : Nat → HostSample) (channel : List HostSample) :
    writeChannel f channel.length channel = (List.range channel.length).map f := by
  rw [writeChannel_eq_append_drop f (Nat.le_refl _), List.drop_length, List.append_nil]

/-- The ticks write OUT_CONV of their samples into every channel of every bus. -/
theorem ticks_range_bufs (n : Nat) (s : State) :
    ((List.range n).foldl tick s).bufs =
      s.bufs.map (List.map (writeChannel (fun k => outConv s.cfg.outConv (tickSample s k)) n)) := by
  induction n with
  | zero => simp [writeChannel_zero]
  | succ n ih =>
    rw [ticks_range_succ, tick_bufs, ticks_cfg, ih]
    simp [tickSample, writeChannel_succ]

/-- A channel of buffers of the configured shape has BLOCK_LEN elements (R71). -/
theorem bufsShaped.channel_length {s : State} (h : bufsShaped s) {bus : List (List HostSample)} (hbus : bus ∈ s.bufs)
    {channel : List HostSample} (hch : channel ∈ bus) : channel.length = s.cfg.blockLen := by
  have hmem : bus.map List.length ∈ s.cfg.nch.map fun n => List.replicate n s.cfg.blockLen :=
    h ▸ List.mem_map_of_mem hbus
  obtain ⟨n, -, hn⟩ := List.mem_map.1 hmem
  exact List.eq_of_mem_replicate (hn ▸ List.mem_map_of_mem hch)

/-- Where every channel of BLOCK_LEN elements becomes `c`, buffers of the configured shape become `c` in every channel of every bus. -/
theorem bufsShaped.map_channels {s : State} (h : bufsShaped s) {g : List HostSample → List HostSample} {c : List HostSample}
    (hg : ∀ channel, channel.length = s.cfg.blockLen → g channel = c) :
    s.bufs.map (List.map g) = s.cfg.nch.map fun n => List.replicate n c := by
  calc s.bufs.map (List.map g)
      = (s.bufs.map (List.map List.length)).map (List.map fun _ => c) := by
        rw [List.map_map]
        refine List.map_congr_left fun bus hbus => ?_
        rw [Function.comp_apply, List.map_map]
        exact List.map_congr_left fun channel hch => hg channel (h.channel_length hbus hch)
    _ = (s.cfg.nch.map fun n => List.replicate n s.cfg.blockLen).map (List.map fun _ => c) :=
        congrArg (List.map (List.map fun _ => c)) h
    _ = s.cfg.nch.map fun n => List.replicate n c := by simp

/-- The ticks of a block leave OUT_CONV of its samples in every channel of buffers of the configured shape. -/
theorem render_bufs {u : State} (h : bufsShaped u) :
    (render u).bufs = u.cfg.nch.map fun n => List.replicate n ((render u).samples.map (outConv u.cfg.outConv)) := by
  refine (ticks_range_bufs u.cfg.blockLen { u with samples := [] }).trans (h.map_channels fun channel hlen => ?_)
  rw [render_samples, List.map_map, ← hlen]
  exact writeChannel_length _ channel

/-- Settles O41: DRAIN keeps the buffers' shape, and the ticks write every element of every channel. -/
theorem blockBroadcastsItsSamples : Obligations.BlockBroadcastsItsSamples := by
  intro s t hs ht
  obtain ⟨u, hu, rfl⟩ := block_cases ht
  obtain ⟨hcfg, -⟩ := drain_keeps hu
  obtain ⟨hshape, -⟩ := drain_induct stepStable_bufsShaped.word stepStable_bufsShaped.queue hs hu
  rw [render_bufs hshape, hcfg]

/-! ### Blocks of the host's script (R211, R217) -/

/-- What BLOCK keeps of the state, and the queue it leaves (R212, R48). -/
theorem block_keeps {s t : State} (h : block s = .next t) : t.cq = [] ∧ t.cfg = s.cfg ∧ t.host = s.host := by
  cases (block_eq_render s).symm.trans h
  obtain ⟨hcfg, hhost⟩ := drain_keeps (drainAppliesEveryWordInOrder s)
  exact ⟨render_cq _, (render_cfg _).trans hcfg, (render_host _).trans hhost⟩

/-- A PUSH that is held lets the BLOCK behind it go ahead, and stays at the head of the script (R217, log 7). -/
theorem step_of_held_push {s : State} {w : Word} {rest : List HostEvent} (hhost : s.host = .push w :: .block :: rest)
    (hfull : s.cq.length = s.cfg.qdepth) : step s = block { s with host := .push w :: rest } := by
  have hheld : pushEnabled s = false := decide_eq_false (not_not_intro hfull)
  exact step_of_nextEvent (e := .block) (by rw [hhost, hheld]; rfl)

/-- Settles O44: the block empties CQ, so QDEPTH ≥ 1 leaves room for the held word. -/
theorem heldPushCompletesAfterTheNextBlock : Obligations.HeldPushCompletesAfterTheNextBlock := by
  intro s w rest hhost hfull hdepth
  obtain ⟨t, ht⟩ := block_completes { s with host := .push w :: rest }
  obtain ⟨hcq, hcfg, hscript⟩ := block_keeps ht
  have hroom : t.cq.length < t.cfg.qdepth := by rwa [hcq, hcfg]
  obtain ⟨-, -, -, hpush⟩ := stepTakesTheHostsFirstEvent t rest
  refine ⟨t, _, (step_of_held_push hhost hfull).trans ht, ht, hpush w hscript hroom, ?_, rfl⟩
  rw [hcq]
  rfl

/-- Settles O45: DRAIN of one word is exec of its command on the emptied queue, which completes, and the ticks follow. -/
theorem blockStepRunsTheDecodedCommand : Obligations.BlockStepRunsTheDecodedCommand := by
  intro s w rest hhost hcq
  obtain ⟨-, -, hblock, -⟩ := stepTakesTheHostsFirstEvent s rest
  rw [hblock hhost, block, drain, hcq, drainWords, exec_eq_next]
  rfl

end Sys2Proof.Machine

/-! # Exceptional conditions (60_exceptions.md)

A guard sets its flag and reports its condition together, so the records of one kind count what their flag holds;
and every record is of exactly one of five kinds. -/

namespace Sys2Proof.Machine

/-! ### What a report does to the records of one kind (R242, R243) -/

section Reports

variable {kind : Diag → Bool} {flag : Bool} {d : Diag} {stream : List Diag}

/-- A report of another kind of record leaves the number of records of this kind as it is. -/
theorem countP_reportOnce_of_not_kind (raised flag : Bool) (stream : List Diag) (hd : kind d = false) :
    (reportOnce raised flag d stream).countP kind = stream.countP kind := by
  rw [reportOnce_eq, List.countP_append]
  cases raised && !flag <;> simp [hd]

/-- Where the records of a kind count their flag, a report of that kind counts the flag the guard leaves. -/
theorem countP_reportOnce_of_kind (raised : Bool) (hd : kind d = true) (h : stream.countP kind = flag.toNat) :
    (reportOnce raised flag d stream).countP kind = (flag || raised).toNat := by
  rw [reportOnce_eq, List.countP_append, h]
  cases flag <;> cases raised <;> simp [hd]

end Reports

/-! ### One record per set flag (R243) -/

/-- ADVANCE reports what it sets `DIAG[i]` for (R112). -/
theorem streamMatchesFlags_advance {s : State} (i : Fin 4) (m : F) (h : streamMatchesFlags s) :
    streamMatchesFlags (advance i m s) := by
  obtain ⟨hop, hmix⟩ := h
  refine ⟨fun j => ?_, (countP_reportOnce_of_not_kind _ _ _ rfl).trans hmix⟩
  by_cases hij : i = j
  · subst hij
    rw [advance_get_self]
    exact countP_reportOnce_of_kind _ (decide_eq_true rfl) (hop i)
  · rw [advance_get_ne m s (Ne.symm hij)]
    exact (countP_reportOnce_of_not_kind _ _ _ (decide_eq_false hij)).trans (hop j)

/-- The end of a tick reports what it sets MIXDIAG for (R161). -/
theorem streamMatchesFlags_finishTick {s : State} (k : Nat) (h : streamMatchesFlags s) :
    streamMatchesFlags (finishTick k s) := by
  obtain ⟨hop, hmix⟩ := h
  exact ⟨fun j => (countP_reportOnce_of_not_kind _ _ _ rfl).trans (hop j), countP_reportOnce_of_kind _ rfl hmix⟩

/-- A command word neither sets a flag nor emits a record. -/
theorem streamMatchesFlags_applyWord {s : State} (w : Word) (h : streamMatchesFlags s) :
    streamMatchesFlags (applyWord s w) := by
  simpa only [streamMatchesFlags, applyWord_diags, applyWord_diag, applyWord_mixdiag] using h

theorem stepStable_streamMatchesFlags : StepStable streamMatchesFlags where
  word _ w h := streamMatchesFlags_applyWord w h
  queue _ _ h := h
  host _ _ h := h
  advance _ i m h := streamMatchesFlags_advance i m h
  finish _ k h := streamMatchesFlags_finishTick k h
  samples _ h := h
  keepAlive _ h := h

/-- A fresh voice has every flag clear and an empty stream (R270). -/
theorem streamMatchesFlags_construct (c : Cfg) (host : List HostEvent) : streamMatchesFlags (construct c host) :=
  ⟨fun i => by rw [construct_get]; rfl, rfl⟩

/-! ### The length of the stream (R242) -/

/-- Every record is an OPNF record of exactly one operator or an MIXNF record, so the kinds' counts make up the length. -/
theorem length_eq_sum_countP (ds : List Diag) :
    ds.length = ∑ i, ds.countP (isOpnf i) + ds.countP isMixnf := by
  induction ds with
  | nil => simp
  | cons d ds ih =>
    cases d with
    | opnf => simp [List.countP_cons, Finset.sum_add_distrib, isOpnf, isMixnf, ih, Nat.add_right_comm]
    | mixnf => simp [List.countP_cons, isOpnf, isMixnf, ih, Nat.add_assoc]

/-- Four flags DIAG and the flag MIXDIAG bound a stream that matches them (R242). -/
theorem streamMatchesFlags.length_le {s : State} (h : streamMatchesFlags s) : s.diags.length ≤ 5 := by
  obtain ⟨hop, hmix⟩ := h
  calc s.diags.length = ∑ i, (s.op.get i).diag.toNat + s.mixdiag.toNat := by
        rw [length_eq_sum_countP, hmix, Finset.sum_congr rfl fun i _ => hop i]
    _ ≤ ∑ _i : Fin 4, 1 + 1 := Nat.add_le_add (Finset.sum_le_sum fun _ _ => Bool.toNat_le _) (Bool.toNat_le _)
    _ = 5 := rfl

/-- Settles O58: every part of a step reports what it sets a flag for, RESET clears flags and stream, and there are five flags. -/
theorem stepKeepsOneRecordPerFlag : Obligations.StepKeepsOneRecordPerFlag :=
  ⟨fun _ _ hs h => stepStable_streamMatchesFlags.step_of_construct
    (fun c host _ => streamMatchesFlags_construct c host) hs h, fun _ h => h.length_le⟩

end Sys2Proof.Machine

/-! # Reset and hazards (70_reset_and_hazards.md)

RESET answers a fresh voice or a refusal by the configuration alone, and the fresh voice of a well-formed configuration meets every invariant.
That `refCfg` is well-formed rests on E3: the pitches at its ends lie between those of two keys whose EXP2 is an exact power of two. -/

namespace Sys2Proof.Machine

/-! ### What RESET answers (R270, R272) -/

/-- Settles O48: of the old state RESET reads the script alone. -/
theorem resetForgetsTheOldVoice : Obligations.ResetForgetsTheOldVoice := by
  intro c s s' h
  rw [resetVoice, resetVoice, h]

/-- Settles O47: R49 decides between the refusal and the constructed voice, and R270's registers are read off the latter. -/
theorem resetConstructsAFreshVoice : Obligations.ResetConstructsAFreshVoice := by
  intro s c
  refine ⟨fun hbad => ?_, fun hwf => ?_⟩
  · rw [resetVoice, hbad]
    rfl
  · exact ⟨construct c s.host, if_pos hwf, rfl, rfl, rfl, construct_get c s.host, rfl, rfl, rfl⟩

/-! ### A pushed command (R275, R276) -/

/-- A well-formed command does what its word does (R212). -/
theorem exec_eq_applyWord_encode {i : Instr} (hwf : i.wf = true) (s : State) : exec i s = .next (applyWord s (encode i)) := by
  rw [← exec_eq_next, decodeOfEncodeIsTheCommand i hwf]

/-- Settles O46: the PUSH writes CQ and the script alone, and DRAIN of the next BLOCK applies the one word it queued. -/
theorem pushedCommandActsAtTheNextBlock : Obligations.PushedCommandActsAtTheNextBlock := by
  intro s i rest hwf hcq hdepth hhost
  have hroom : s.cq.length < s.cfg.qdepth := by rwa [hcq]
  have hexec := exec_eq_applyWord_encode hwf { s with cq := [], host := rest }
  obtain ⟨-, -, -, hpush⟩ := stepTakesTheHostsFirstEvent s (.block :: rest)
  obtain ⟨-, -, hblock, -⟩ :=
    stepTakesTheHostsFirstEvent { s with cq := s.cq ++ [encode i], host := .block :: rest } rest
  refine ⟨_, _, hpush (encode i) hhost hroom, rfl, rfl, rfl, rfl, hexec, (hblock rfl).trans (block_of_drain ?_)⟩
  rw [hcq]
  exact drainWords_encode hwf hexec

/-! ### The configuration of `State.reset` (R49) -/

/-- The pitch of a key does not depend on the key range (R180). -/
theorem pitch_keyRange (c : Cfg) (lo hi k : Int) : pitch { c with keyMin := lo, keyMax := hi } k = pitch c k := by
  unfold pitch
  rfl

/-- A well-formed configuration stays so when its key range shrinks around key 69: the pitches R49 asks for lie between the old ones (log 17). -/
theorem wfCfg_of_keyRange_subset {c : Cfg} {lo hi : Int} (hwf : wfCfg c = true) (hrange : keysInExp2Range c)
    (hlo : c.keyMin ≤ lo) (hlo69 : lo ≤ 69) (hhi69 : 69 ≤ hi) (hhi : hi ≤ c.keyMax) :
    wfCfg { c with keyMin := lo, keyMax := hi } = true := by
  obtain ⟨hsr, hrouting, hops, hscale, ⟨-, -, hmin, hmax⟩, -, hsizes, hfunctions⟩ :=
    (wellFormedExactlyWhenEveryCheckPasses c).1 hwf
  obtain ⟨-, hpos⟩ := pitch_finite_pos hwf hrange hlo (hlo69.trans (hhi69.trans hhi))
  obtain ⟨hfin, -⟩ := pitch_finite_pos hwf hrange (hlo.trans (hlo69.trans hhi69)) hhi
  refine (wellFormedExactlyWhenEveryCheckPasses _).2
    ⟨hsr, hrouting, hops, hscale, ⟨hlo69, hhi69, hmin.trans hlo, hhi.trans hmax⟩, ⟨?_, ?_, fun i => ?_⟩, hsizes, hfunctions⟩
  · rwa [pitch_keyRange]
  · rwa [pitch_keyRange]
  · rw [pitch_keyRange]
    exact (increment_finite_nonneg hwf hrange (hlo.trans (hlo69.trans hhi69)) hhi i).1

/-- `refCfg` with its key range widened to whole octaves around key 69, where E1 fixes the pitches R49 asks for. -/
def wholeOctavesCfg : Cfg := { refCfg with keyMin := 69 - 6 * 12, keyMax := 69 + 5 * 12 }

theorem wfCfg_wholeOctavesCfg : wfCfg wholeOctavesCfg = true := by decide +kernel

theorem wfCfg_refCfg : wfCfg refCfg = true := by
  have hrange : keysInExp2Range wholeOctavesCfg := by
    unfold keysInExp2Range
    decide
  exact wfCfg_of_keyRange_subset (lo := 0) (hi := 127) wfCfg_wholeOctavesCfg hrange (by decide) (by decide) (by decide) (by decide)

/-! ### The invariants of a fresh voice (R270) -/

theorem phaseOk_construct {c : Cfg} (host : List HostEvent) (hwf : wfCfg c = true) : phaseOk (construct c host) := by
  refine ⟨voiceOk_construct host hwf, fun _ i => ?_⟩
  rw [construct_get]
  exact inUnit_iff.2 ⟨_, by decide, rfl⟩

theorem outputsFinite_construct (c : Cfg) (host : List HostEvent) : outputsFinite (construct c host) := by
  intro i
  rw [construct_get]
  rfl

theorem samplesFinite_construct (c : Cfg) (host : List HostEvent) : samplesFinite (construct c host) := nofun

theorem queueBounded_construct (c : Cfg) (host : List HostEvent) : queueBounded (construct c host) := Nat.zero_le _

theorem reset_eq_construct : State.reset = construct refCfg [] := rfl

/-- Settles O60: `State.reset` is the fresh voice of a well-formed configuration. -/
theorem resetStateMeetsTheInvariants : Obligations.ResetStateMeetsTheInvariants := by
  refine ⟨wfCfg_refCfg, reset_eq_construct, ?_⟩
  rw [reset_eq_construct]
  exact ⟨phaseOk_construct [] wfCfg_refCfg, outputsFinite_construct refCfg [], samplesFinite_construct refCfg [],
    queueBounded_construct refCfg [], streamMatchesFlags_construct refCfg [], bufsShaped_construct refCfg []⟩

end Sys2Proof.Machine

/-! # Encoded examples (30_encoding.md section 3, 95_test_vectors.md section 2.5)

The command of a word with given fields, whatever RSV holds; each example is such a word. -/

namespace Sys2Proof

section

variable {w : Word}

theorem decode_of_cmdWord_zero (rsv : BitVec 8) (key : Key) (h : cmdWord 0x00 rsv key = w) : decode w = .nop := by
  rw [← h, decode_of_opField_zero (opField_cmdWord 0x00 rsv key)]

theorem decode_of_cmdWord_one (rsv : BitVec 8) (key : Key) (h : cmdWord 0x01 rsv key = w) : decode w = .noteOn key := by
  rw [← h, decode_of_opField_one (opField_cmdWord 0x01 rsv key), keyField_cmdWord]

theorem decode_of_cmdWord_two (rsv : BitVec 8) (key : Key) (h : cmdWord 0x02 rsv key = w) : decode w = .noteOff key := by
  rw [← h, decode_of_opField_two (opField_cmdWord 0x02 rsv key), keyField_cmdWord]

theorem decode_of_cmdWord_unknown {op : BitVec 8} (hop : 3 ≤ op.toNat) (rsv : BitVec 8) (key : Key)
    (h : cmdWord op rsv key = w) : decode w = .unknown op := by
  rw [← h, decode_of_three_le_opField (by rwa [opField_cmdWord]), opField_cmdWord]

end

/-- Settles O14: each word has the OP, RSV and KEY its row of the table names, and OP selects the command. -/
theorem encodedExamplesDecode : Obligations.EncodedExamplesDecode :=
  ⟨⟨decode_of_cmdWord_zero 0 0 rfl, decode_of_cmdWord_one 0 69 rfl, decode_of_cmdWord_one 0 81 rfl,
      decode_of_cmdWord_one 0 60 rfl, decode_of_cmdWord_one 0 64 rfl, decode_of_cmdWord_one 0 0 rfl,
      decode_of_cmdWord_one 0 127 rfl, decode_of_cmdWord_one 0 (-12) rfl, decode_of_cmdWord_one 0 140 rfl,
      decode_of_cmdWord_two 0 60 rfl, decode_of_cmdWord_two 0 61 rfl, decode_of_cmdWord_two 0 69 rfl,
      decode_of_cmdWord_one 0xAB 69 rfl, decode_of_cmdWord_unknown (by decide) 0 69 rfl⟩,
    decode_of_cmdWord_zero 0xFF 0x1234 rfl, decode_of_cmdWord_one 0 (-32768) rfl, decode_of_cmdWord_two 0x55 60 rfl,
    decode_of_cmdWord_unknown (by decide) 0xFF 0xFFFF rfl⟩

end Sys2Proof
